-- ==== Sys2Proof/Word.lean ====
section
/-! DEFINITION. The kinds of number the block handles. Unless a width is stated a value is a mathematical integer (spec
00_scope.md R11): virtual page numbers, frame numbers and raw words are plain natural numbers (10_state.md R38, R24; the
widths that bound them stand in `Config.lean`), an address operand is an integer (30_encoding.md R75). The one fixed-width
field is the opcode. -/

namespace Sys2Proof

/-- The four opcode bits of a command (30_encoding.md R73). -/
abbrev Opcode := BitVec 4

end Sys2Proof
end

