-- ==== Sys2Proof/Machine/Bits.lean ====
section
/-! DEFINITION. The bit operators of the spec's notation (00_scope.md R11, R12), on natural numbers and integers. -/

namespace Sys2Proof.Machine

/-- `mask(n) = 2^n - 1` (R12). -/
def mask (n : Nat) : Nat := 2 ^ n - 1

/-- The `len` bits of `x` from bit `lo` up, `x[lo+len-1 : lo]` (R12); the empty slice is 0. -/
def bitField (x lo len : Nat) : Nat := (x >>> lo) % 2 ^ len

/-- Bit `i` of `x` (R11). -/
def bitAt (x i : Nat) : Bool := x.testBit i

/-- One bit as a number, for the OR of an assignment such as `value << fb`. -/
def bitValue (b : Bool) : Nat := if b then 1 else 0

/-- `x & ~m` (R12): `x` with every bit set in `m` cleared and every other bit kept. -/
def clearBits (x m : Nat) : Nat := x ^^^ (x &&& m)

/-- `sext_N(v)` (R12): the signed value of the `n`-bit pattern `v`. -/
def signExtend (n v : Nat) : Int := if 2 * v < 2 ^ n then (v : Int) else (v : Int) - 2 ^ n

/-- The `n`-bit two's-complement pattern of a signed value, the pattern `sext_N` reads back. -/
def signedPattern (n : Nat) (v : Int) : Nat := (v % 2 ^ n).toNat

end Sys2Proof.Machine
end

