-- ==== Sys2Proof/Syntax.lean ====
section
/-! DEFINITION. What crosses the two ports: the seven commands (spec 30_encoding.md R76), the four-field command record
the host presents (R73), the status codes (R79) and the response record (R78). -/

namespace Sys2Proof

/-- The seven run-time commands, one constructor per row of the opcode table (R76). An operand carries its value: an
address operand is the signed integer `sext_AIW(addr)` (R75), a raw word or a frame number a natural number, and the
`value` of SET_PRESENT is bit 0 of `val` (R75). -/
inductive Instr where
  /-- `TRANSLATE va` (R140). -/
  | translate (va : Int)
  /-- `RESOLVE va` (R190). -/
  | resolve (va : Int)
  /-- `TOUCH vpn` (R160). -/
  | touch (vpn : Int)
  /-- `HANDLE_FAULT vpn` (R163). -/
  | handleFault (vpn : Int)
  /-- `DECODE raw` (R120). -/
  | decode (raw : Nat)
  /-- `SET_PRESENT raw, value` (R122). -/
  | setPresent (raw : Nat) (value : Bool)
  /-- `SET_FRAME raw, new_frame` (R124). -/
  | setFrame (raw : Nat) (newFrame : Nat)
  deriving DecidableEq, Repr

/-- One command as the host presents it (R73): the opcode and the three operand fields. `addr` is held by its value,
the signed integer the two's-complement field stands for; the model's operands are unbounded (R9, assumption 3). -/
structure Command where
  op   : Opcode
  addr : Int
  raw  : Nat
  val  : Nat
  deriving DecidableEq, Repr

/-- The response statuses (R79). `invalidSize` is in the numbering and is never produced at run time; the code 7 is
reserved and has no name. -/
inductive Status where
  | ok
  | pageFault
  | addressOutOfRange
  | invalidConfiguration
  | invalidSize
  | illegalCommand
  | fatal
  deriving DecidableEq, Repr, Inhabited

/-- One response (R78). `status` is always defined; every other field is defined only where the command's rule names
it, and is otherwise a free value (`Config.freeResponse`) within its width. -/
structure Response where
  status        : Status
  vpn           : Nat
  offset        : Nat
  frame         : Nat
  pa            : Nat
  va            : Nat
  raw           : Nat
  entrySome     : Bool
  entryPresent  : Bool
  entryFrame    : Nat
  present       : Bool
  protection    : Bool
  modified      : Bool
  referenced    : Bool
  cacheDisabled : Bool
  deriving DecidableEq, Repr, Inhabited

end Sys2Proof
end

