-- ==== Sys2Proof/Config.lean ====
section
/-! DEFINITION. What is fixed before the block runs: the configuration constants (spec 00_scope.md R7, 10_state.md R21),
the port widths (R9), what a reset is given (R9, R240), the moves a host can make (R248), and the free values. -/

namespace Sys2Proof

/-- The validated address-space configuration (R7), held by its three exponents: the three primary parameters are
powers of two (R104), so a value of this type IS a valid configuration and no invalid one can be written down (R8). -/
structure AddressSpaceConfig where
  offsetBits : Nat
  frameBits  : Nat
  vpnBits    : Nat
  deriving DecidableEq, Repr

/-- `page_size_bytes` (R7). -/
def AddressSpaceConfig.pageSizeBytes (c : AddressSpaceConfig) : Nat := 2 ^ c.offsetBits

/-- `frame_count` (R7). -/
def AddressSpaceConfig.frameCount (c : AddressSpaceConfig) : Nat := 2 ^ c.frameBits

/-- `virtual_page_count` (R7). -/
def AddressSpaceConfig.virtualPageCount (c : AddressSpaceConfig) : Nat := 2 ^ c.vpnBits

/-- `physical_address_bits` (R7, R21). -/
def AddressSpaceConfig.physicalAddressBits (c : AddressSpaceConfig) : Nat := c.frameBits + c.offsetBits

/-- `virtual_address_bits` (R7, R21). -/
def AddressSpaceConfig.virtualAddressBits (c : AddressSpaceConfig) : Nat := c.vpnBits + c.offsetBits

/-- The three port widths this spec adds (R9): `AIW`, `RW`, `FW`. -/
structure PortWidths where
  aiw : Nat
  rw  : Nat
  fw  : Nat
  deriving DecidableEq, Repr

/-- The widths the packed command words of the opcode table are written in (R74). -/
def PortWidths.table : PortWidths := { aiw := 20, rw := 8, fw := 4 }

/-- Number of bits of a packed command, `AIW + RW + FW + 4` (R74). -/
def PortWidths.packedBits (w : PortWidths) : Nat := w.aiw + w.rw + w.fw + 4

/-- The constants of one block: its address space and its port widths. They never change while the block exists
(R8, R106). -/
structure Params where
  space  : AddressSpaceConfig
  widths : PortWidths
  deriving DecidableEq, Repr

/-- The lower bounds R9 puts on the port widths. -/
abbrev Params.ok (p : Params) : Prop :=
  p.space.virtualAddressBits + 2 ≤ p.widths.aiw ∧ p.space.frameBits + 5 ≤ p.widths.rw ∧
    p.space.frameBits + 1 ≤ p.widths.fw

/-- A page-table entry (R24): the three attributes stand side by side. -/
structure Entry where
  present : Bool
  frame   : Nat
  raw     : Nat
  deriving DecidableEq, Repr

/-- The content of the page-table store (R23): the slots that hold an entry, by VPN. A slot that is not listed is
`none`. The one canonical form is strictly rising VPNs (`Machine.Memory.wf`). -/
abbrev PageTable := List (Nat × Entry)

/-- What a reset is given beside the configuration (R9, R240): the initial page table and the two order parameters. -/
structure ResetImage where
  ptInit    : PageTable
  initOrder : List Nat
  freeOrder : List Nat
  deriving DecidableEq, Repr

/-- The two moves the host can make (R248). -/
inductive HostMove where
  /-- Present one command on the command port. -/
  | command (c : Command)
  /-- Reset the block with this initial table and these orders. -/
  | reset (img : ResetImage)
  deriving DecidableEq, Repr

/-- FREE VALUE (assumption 6): what the response port carries in the fields a response does not define (R78, U9), and
before the first response after a reset (R246, U20). The argument is a draw number, so that two responses need not
agree. It has no body: nothing can be proved of it. `Machine.trimResponse` holds it to the field widths of R78. -/
opaque Config.freeResponse : Nat → Response

/-- FREE VALUE (assumption 24): which parameter `InvalidConfiguration` names when `create` is given missing or contradictory
parameters (R100, R210, U13); `Machine.wrongPairs` reads it as one of the four. The arguments are those of `create`, because the
same arguments always give the same signal (R106). It has no body: nothing can be proved of it. -/
opaque Config.offendingParameter : Int → Option Int → Option Int → Option Int → Option Int → Nat

/-- The configuration of `State.reset` (assumption 2): the document's own example, page size 4096, four frames, eight
virtual pages (CFG-A), with the widths of the packed command form (R74). -/
def Params.default : Params :=
  { space := { offsetBits := 12, frameBits := 2, vpnBits := 3 }, widths := PortWidths.table }

end Sys2Proof
end

