-- ==== Sys2Proof/WellFormed.lean ====
section
/-! DEFINITION. When a command can be written on a port of given widths (spec 30_encoding.md R73, R75; 00_scope.md R9):
each operand fits its field. -/

namespace Sys2Proof

/-- `v` is the value of some two's-complement pattern of `n` bits (R12, `sext_N`). -/
abbrev fitsSigned (n : Nat) (v : Int) : Prop := -(2 ^ n : Int) ≤ 2 * v ∧ 2 * v < 2 ^ n

/-- `v` fits an unsigned field of `n` bits (R12, `zext_N`). -/
abbrev fitsUnsigned (n v : Nat) : Prop := v < 2 ^ n

/-- The command's operands fit the port's fields: the address operand `AIW` bits signed, the raw word `RW` bits, the new
frame `FW` bits, and the one bit `val[0]` of SET_PRESENT needs a `val` field of at least one bit. -/
abbrev Instr.wellFormed (w : PortWidths) : Instr → Prop
  | .translate va      => fitsSigned w.aiw va
  | .resolve va        => fitsSigned w.aiw va
  | .touch vpn         => fitsSigned w.aiw vpn
  | .handleFault vpn   => fitsSigned w.aiw vpn
  | .decode raw        => fitsUnsigned w.rw raw
  | .setPresent raw _  => fitsUnsigned w.rw raw ∧ 0 < w.fw
  | .setFrame raw f    => fitsUnsigned w.rw raw ∧ fitsUnsigned w.fw f

end Sys2Proof
end

