-- ==== Sys2Proof/Decode.lean ====
section
/-! DEFINITION. The decoder, total on any packed word and on any command record, and the encoder after it, both written
from the same tables (spec 30_encoding.md R73 to R77). -/

namespace Sys2Proof

/-- Why a word is not a command. -/
inductive DecodeReject where
  /-- The opcode is `0x0` or `0x8` to `0xF` (R77). -/
  | reservedOpcode (op : Opcode)
  /-- The number has a bit above the `AIW + RW + FW + 4` bits of a packed command (R74). -/
  | notACommandWord
  deriving DecidableEq, Repr

/-- What the decoder answers. -/
inductive Decoded where
  | instr (i : Instr)
  | rejected (r : DecodeReject)
  deriving DecidableEq, Repr

/-- The opcode of each command (R76). -/
def Instr.opcode : Instr → Opcode
  | .translate _    => 0x1#4
  | .resolve _      => 0x2#4
  | .touch _        => 0x3#4
  | .handleFault _  => 0x4#4
  | .decode _       => 0x5#4
  | .setPresent _ _ => 0x6#4
  | .setFrame _ _   => 0x7#4

/-- The status numbers (R79); 7 is reserved and never produced. -/
def Status.code : Status → BitVec 3
  | .ok                   => 0#3
  | .pageFault            => 1#3
  | .addressOutOfRange    => 2#3
  | .invalidConfiguration => 3#3
  | .invalidSize          => 4#3
  | .illegalCommand       => 5#3
  | .fatal                => 6#3

/-- The command a record stands for (R73, R75, R76): the opcode alone selects it, its operands are the fields R76 names,
and every other field is ignored. -/
def decodeCommand (c : Command) : Decoded :=
  if c.op = 0x1#4 then .instr (.translate c.addr)
  else if c.op = 0x2#4 then .instr (.resolve c.addr)
  else if c.op = 0x3#4 then .instr (.touch c.addr)
  else if c.op = 0x4#4 then .instr (.handleFault c.addr)
  else if c.op = 0x5#4 then .instr (.decode c.raw)
  else if c.op = 0x6#4 then .instr (.setPresent c.raw (Machine.bitAt c.val 0))
  else if c.op = 0x7#4 then .instr (.setFrame c.raw c.val)
  else .rejected (.reservedOpcode c.op)

/-- The record a packed word stands for, `CW = op ‖ val ‖ raw ‖ addr` (R74), the address read as `sext_AIW(addr)`
(R75). -/
def unpack (w : PortWidths) (cw : Nat) : Command :=
  { op   := BitVec.ofNat 4 (Machine.bitField cw (w.aiw + w.rw + w.fw) 4)
    addr := Machine.signExtend w.aiw (Machine.bitField cw 0 w.aiw)
    raw  := Machine.bitField cw w.aiw w.rw
    val  := Machine.bitField cw (w.aiw + w.rw) w.fw }

/-- The decoder of packed words, total on every number. -/
def decodePacked (w : PortWidths) (cw : Nat) : Decoded :=
  if cw < 2 ^ w.packedBits then decodeCommand (unpack w cw) else .rejected .notACommandWord

/-- The record of a command, the fields it does not use written as zero (95_test_vectors.md §0; assumption 17). -/
def commandOf : Instr → Command
  | .translate va      => { op := 0x1#4, addr := va, raw := 0, val := 0 }
  | .resolve va        => { op := 0x2#4, addr := va, raw := 0, val := 0 }
  | .touch vpn         => { op := 0x3#4, addr := vpn, raw := 0, val := 0 }
  | .handleFault vpn   => { op := 0x4#4, addr := vpn, raw := 0, val := 0 }
  | .decode raw        => { op := 0x5#4, addr := 0, raw := raw, val := 0 }
  | .setPresent raw b  => { op := 0x6#4, addr := 0, raw := raw, val := Machine.bitValue b }
  | .setFrame raw f    => { op := 0x7#4, addr := 0, raw := raw, val := f }

/-- The packed form of a record (R74). -/
def pack (w : PortWidths) (c : Command) : Nat :=
  c.op.toNat * 2 ^ (w.aiw + w.rw + w.fw) + c.val * 2 ^ (w.aiw + w.rw) + c.raw * 2 ^ w.aiw
    + Machine.signedPattern w.aiw c.addr

/-- The encoder: the packed word of a command. -/
def encodePacked (w : PortWidths) (i : Instr) : Nat := pack w (commandOf i)

/-- The command the decoder reads from the low `nbits` bits of `w`, a word of the opcode table (`AIW = 20`, `RW = 8`,
`FW = 4`, R74). There is no byte order (20_memory.md R52): the word is a number, bit 0 its least significant bit. -/
def decodeTableWord (nbits w : Nat) : Option Instr :=
  match decodePacked PortWidths.table (w % 2 ^ nbits) with
  | .instr i => some i
  | .rejected _ => none

end Sys2Proof
end

