-- ==== Sys2Proof/Machine/Flags.lean ====
section
/-! DEFINITION. The control bits of a raw word: the codec's three functions and the composition a load uses
(spec 30_encoding.md R70, 41_codec.md R120 to R129). `fb` is `frame_bits`, the one constant the codec reads (10_state.md
R22). The block has no other flag (10_state.md R34). -/

namespace Sys2Proof.Machine

/-- The frame field, `raw & mask(fb)` (R120). -/
def frameField (fb raw : Nat) : Nat := raw &&& mask fb

/-- P, bit `fb` (R70, R120). -/
def presentBit (fb raw : Nat) : Bool := bitAt raw fb

/-- PROT, bit `fb + 1` (R70, R120). -/
def protectionBit (fb raw : Nat) : Bool := bitAt raw (fb + 1)

/-- MOD, bit `fb + 2` (R70, R120). -/
def modifiedBit (fb raw : Nat) : Bool := bitAt raw (fb + 2)

/-- REF, bit `fb + 3` (R70, R120). -/
def referencedBit (fb raw : Nat) : Bool := bitAt raw (fb + 3)

/-- CD, bit `fb + 4` (R70, R120). -/
def cacheDisableBit (fb raw : Nat) : Bool := bitAt raw (fb + 4)

/-- `set_present(raw, value) = (raw & ~(1 << fb)) | (value << fb)` (R122): it assigns the bit, it never toggles it
(90_conflicts.md C3). -/
def setPresent (fb raw : Nat) (value : Bool) : Nat := clearBits raw (1 <<< fb) ||| (bitValue value <<< fb)

/-- `set_frame(raw, new_frame) = (raw & ~mask(fb)) | new_frame` for a frame that fits (R124); the caller has made the
check of R126. -/
def setFrame (fb raw newFrame : Nat) : Nat := clearBits raw (mask fb) ||| newFrame

/-- The overflow test of SET_FRAME (R126): the frame does not fit `fb` bits. -/
def frameOverflows (fb newFrame : Nat) : Bool := 2 ^ fb ≤ newFrame

/-- The raw word of a loaded page (R129, R167). -/
def loadRaw (fb base f : Nat) : Nat := setPresent fb (setFrame fb base f) true

end Sys2Proof.Machine
end

