-- ==== Sys2Proof/Machine/Sequences.lean ====
section
/-! DEFINITION. The sequence primitives of the spec (00_scope.md R13, R14), for lists of pairs with a VPN as key: the
page-table store and `resident`. -/

namespace Sys2Proof.Machine

/-- The value paired with the key `k`, the first if there were several: `PTRead(k)` (R13), `resident(k)` (R14). -/
def findKey {α : Type} : List (Nat × α) → Nat → Option α
  | [], _ => none
  | (v, a) :: rest, k => if v = k then some a else findKey rest k

/-- The list without the pair of key `k`: `remove(s, (k, resident(k)))` (R14). -/
def eraseKey {α : Type} : List (Nat × α) → Nat → List (Nat × α)
  | [], _ => []
  | (v, a) :: rest, k => if v = k then rest else (v, a) :: eraseKey rest k

/-- The store with slot `k` holding `a`, in rising order of the keys: `PTWrite(k, a)` (R13). -/
def writeKey {α : Type} : List (Nat × α) → Nat → α → List (Nat × α)
  | [], k, a => [(k, a)]
  | (v, b) :: rest, k, a =>
    if k < v then (k, a) :: (v, b) :: rest
    else if k = v then (k, a) :: rest
    else (v, b) :: writeKey rest k a

/-- A key moved to the last place with its value unchanged, and the list itself when the key is not in it (R160). -/
def moveToBack {α : Type} (l : List (Nat × α)) (k : Nat) : List (Nat × α) :=
  match findKey l k with
  | some a => eraseKey l k ++ [(k, a)]
  | none => l

/-- The keys stand in strictly rising order. -/
abbrev keysRising {α : Type} (l : List (Nat × α)) : Prop := l.Pairwise (fun a b => a.1 < b.1)

end Sys2Proof.Machine
end

