-- ==== Sys2Proof/Machine/Launch.lean ====
section
/-! DEFINITION. What a reset builds from the initial page table and the two orders, and the premises the loader owes
(spec 70_reset_and_hazards.md R240 to R247). -/

namespace Sys2Proof.Machine

/-- INV-E for one entry (10_state.md R26): the present attribute is bit `fb` of the raw word, and a present entry whose
frame is in range has that frame in the raw word's frame field. -/
abbrev entryAgrees (c : AddressSpaceConfig) (e : Entry) : Prop :=
  presentBit c.frameBits e.raw = e.present ∧
    (e.present = true → e.frame < c.frameCount → frameField c.frameBits e.raw = e.frame)

/-- The entry's attributes fit their fields (R241 P3, R24). -/
abbrev entryFits (w : PortWidths) (e : Entry) : Prop := e.frame < 2 ^ w.fw ∧ e.raw < 2 ^ w.rw

/-- The entry holds a frame: present, and its frame is in range (`Pres` of R243; a corrupt entry holds none, R31). -/
def holdsFrame (c : AddressSpaceConfig) (e : Entry) : Bool := e.present && decide (e.frame < c.frameCount)

/-- The pairs (page, frame) of the pages an initial table makes resident, in rising order of the VPN (R243). -/
def heldPages (c : AddressSpaceConfig) (pt : PageTable) : List (Nat × Nat) :=
  (pt.filter (fun x => holdsFrame c x.2)).map (fun x => (x.1, x.2.frame))

/-- `Pres` of R243, ascending: also the default `INIT_ORDER`. -/
def presentPages (c : AddressSpaceConfig) (pt : PageTable) : List Nat := (heldPages c pt).map Prod.fst

/-- The frames outside `Used`, ascending (R244): also the default `FREE_ORDER`. -/
def unusedFrames (c : AddressSpaceConfig) (pt : PageTable) : List Nat :=
  (List.range c.frameCount).filter (fun f => !((heldPages c pt).map Prod.snd).contains f)

/-- `build_resident` (R243): the held pages in `INIT_ORDER`. -/
def buildResident (c : AddressSpaceConfig) (img : ResetImage) : List (Nat × Nat) :=
  img.initOrder.filterMap (fun v => (findKey (heldPages c img.ptInit) v).map (fun f => (v, f)))

/-- `build_free` (R244): the frames of `FREE_ORDER`, in that order. -/
def buildFree (img : ResetImage) : List Nat := img.freeOrder

/-- What the loader owes (R241 P1 to P4, R243, R244): the table is a map with keys in range, every entry satisfies INV-E
and fits its fields, no two held pages share a frame, and each order lists its set, each member once. -/
abbrev launchAdmitted (p : Params) (img : ResetImage) : Prop :=
  keysRising img.ptInit ∧
  (∀ x ∈ img.ptInit, x.1 < p.space.virtualPageCount) ∧
  (∀ x ∈ img.ptInit, entryAgrees p.space x.2) ∧
  (∀ x ∈ img.ptInit, entryFits p.widths x.2) ∧
  ((heldPages p.space img.ptInit).map Prod.snd).Nodup ∧
  img.initOrder.Perm (presentPages p.space img.ptInit) ∧
  img.freeOrder.Perm (unusedFrames p.space img.ptInit)

/-- A response held to the field widths of R78 (30_encoding.md): each number keeps the low bits its field has, so a field of
width 0 carries 0. It bounds the free values of undefined fields and leaves them free within the width (assumption 6). -/
def trimResponse (p : Params) (r : Response) : Response :=
  { r with
    vpn        := r.vpn % 2 ^ p.space.vpnBits
    offset     := r.offset % 2 ^ p.space.offsetBits
    frame      := r.frame % 2 ^ p.space.frameBits
    pa         := r.pa % 2 ^ p.space.physicalAddressBits
    va         := r.va % 2 ^ p.space.virtualAddressBits
    raw        := r.raw % 2 ^ p.widths.rw
    entryFrame := r.entryFrame % 2 ^ p.widths.fw }

/-- The initial table with the default orders of R243 and R244. -/
def defaultImage (c : AddressSpaceConfig) (pt : PageTable) : ResetImage :=
  { ptInit := pt, initOrder := presentPages c pt, freeOrder := unusedFrames c pt }

end Sys2Proof.Machine
end

