-- ==== Sys2Proof/Machine/State.lean ====
section
/-! DEFINITION. The state of the block as plain data (spec 10_state.md R20), the reasons a step can stop, and the state
after reset (70_reset_and_hazards.md R240, R246). -/

namespace Sys2Proof.Machine

/-- The block. The spec's own state is `pt`, `resident`, `freeFrames`, `fatal` (R20); the other fields are the constants
of the block (assumption 1), its response port (assumption 5), the counter of free values (assumption 6) and what the
host has still to do (assumption 4). -/
structure State where
  /-- The constants of the block (R7, R9, R21); no step changes them. -/
  cfg        : Params
  /-- The page-table store `PT` (R23). -/
  pt         : PageTable
  /-- The resident pages with their frames, least recently used first (R28). -/
  resident   : List (Nat × Nat)
  /-- The free frames, next one to hand out first (R29). -/
  freeFrames : List Nat
  /-- The sticky panic flag (R33). -/
  fatal      : Bool
  /-- The response port: the last response (R78). -/
  resp       : Response
  /-- How many free values have been drawn for the response port. -/
  draws      : Nat
  /-- The moves the host will make, next one first (R248, R249). -/
  host       : List HostMove
  deriving DecidableEq, Repr

/-- The reasons the machine could stop with a fault: there is none. Every signal of the spec is a response and the
machine goes on (60_exceptions.md R210, R218, R253; assumption 16). -/
inductive Fault where
  deriving DecidableEq, Repr

/-- The reasons a step has no meaning (00_scope.md R16). -/
inductive Refusal where
  /-- Raised by an arm of `exec` whose command has no meaning in this model. Safe. -/
  | notModelled (mnemonic : String)
  /-- Raised by HANDLE_FAULT, and by a RESOLVE that leads to it, when the page is already resident: the spec gives the
  command no step there (R164, R194, U5; assumption 8). Safe. -/
  | pageAlreadyResident (v : Nat)
  /-- Raised by a reset move whose initial table or orders break the premises of R241 (U1 to U3; assumption 9). Safe. -/
  | launchRefused
  deriving DecidableEq, Repr

/-- The slot-addressed store is in canonical form: VPNs strictly rising, so that equal stores are equal lists. -/
abbrev Memory.wf (pt : PageTable) : Prop := keysRising pt

/-- The block right after a reset with the constants `p` and the image `img` (R240, R246). The response port holds no
defined value: it is the draw numbered `d`, within the field widths. -/
def State.launch (p : Params) (img : ResetImage) (d : Nat) (moves : List HostMove) : State :=
  { cfg        := p
    pt         := img.ptInit
    resident   := buildResident p.space img
    freeFrames := buildFree img
    fatal      := false
    resp       := trimResponse p (Config.freeResponse d)
    draws      := d + 1
    host       := moves }

/-- The machine right after reset, with the parameters of assumption 2: the document's example configuration, the empty
initial table and the default orders, and no move of the host. -/
def State.reset : State :=
  State.launch Params.default (defaultImage Params.default.space []) 0 []

end Sys2Proof.Machine
end

