-- ==== Sys2Proof/Machine/Operands.lean ====
section
/-! DEFINITION. The two operand forms that lead to the page table: a virtual address, split and translated (spec
42_translate.md R140 to R146; 30_encoding.md R72), and a VPN (30_encoding.md R75, 43_lru.md R161, R164). -/

namespace Sys2Proof.Machine

/-- The legal range of R141, both ends included. -/
def addressInRange (c : AddressSpaceConfig) (va : Int) : Bool :=
  decide (0 ≤ va ∧ va ≤ 2 ^ c.virtualAddressBits - 1)

/-- `vpn = va >> offset_bits` (R72, R142). -/
def vpnOf (c : AddressSpaceConfig) (va : Nat) : Nat := va >>> c.offsetBits

/-- `offset = va & mask(offset_bits)` (R72, R142). -/
def offsetOf (c : AddressSpaceConfig) (va : Nat) : Nat := va &&& mask c.offsetBits

/-- `pa = (frame << offset_bits) | offset` (R72, R145). -/
def physicalAddress (c : AddressSpaceConfig) (frame : Nat) (offset : Nat) : Nat :=
  (frame <<< c.offsetBits) ||| offset

/-- `PTRead(v)` (00_scope.md R13): the content of slot `v`. -/
def ptRead (pt : PageTable) (v : Nat) : Option Entry := findKey pt v

/-- `PTWrite(v, e)` (R13). -/
def ptWrite (pt : PageTable) (v : Nat) (e : Entry) : PageTable := writeKey pt v e

/-- The document's `TranslationResult`, with the operand echoed (R145, 90_conflicts.md C4). -/
structure TranslationResult where
  vpn    : Nat
  offset : Nat
  frame  : Nat
  pa     : Nat
  va     : Nat
  raw    : Nat
  deriving DecidableEq, Repr

/-- The ends of a translation (R140). -/
inductive Translation where
  | ok (r : TranslationResult)
  | pageFault (v : Nat) (stale : Option Entry)
  | addressOutOfRange
  | invalidConfiguration
  deriving DecidableEq, Repr

/-- Steps 2 to 5 of R140, for an address in range. -/
def translateInRange (c : AddressSpaceConfig) (pt : PageTable) (va : Nat) : Translation :=
  match ptRead pt (vpnOf c va) with
  | none => .pageFault (vpnOf c va) none
  | some e =>
    if e.present = false then .pageFault (vpnOf c va) (some e)
    else if c.frameCount ≤ e.frame then .invalidConfiguration
    else .ok
      { vpn    := vpnOf c va
        offset := offsetOf c va
        frame  := e.frame
        pa     := physicalAddress c e.frame (offsetOf c va)
        va     := va
        raw    := e.raw }

/-- `translate(virtual_address, table)` (R140): the range check first, without access to the table (R141). -/
def translateVa (c : AddressSpaceConfig) (pt : PageTable) (va : Int) : Translation :=
  if addressInRange c va then translateInRange c pt va.toNat else .addressOutOfRange

/-- The VPN operand of HANDLE_FAULT: a slot of the store, or none (R164). -/
def slotOperand (c : AddressSpaceConfig) (v : Int) : Option Nat :=
  if 0 ≤ v ∧ v < c.virtualPageCount then some v.toNat else none

/-- The VPN operand of TOUCH as a key of `resident`: it has no range check, and a negative number is no key (R161). -/
def keyOperand (v : Int) : Option Nat := if 0 ≤ v then some v.toNat else none

end Sys2Proof.Machine
end

