-- ==== Sys2Proof/Machine/Ops.lean ====
section
/-! DEFINITION. The operations the commands share: answering (spec 30_encoding.md R78), the panic (60_exceptions.md R221,
R222), the steps of a fault (43_lru.md R163 to R171), and taking a page fault and returning from it (60_exceptions.md
R219). -/

namespace Sys2Proof.Machine

/-! ### Named updates of the state -/

/-- The store replaced. -/
def State.withPt (s : State) (pt : PageTable) : State := { s with pt := pt }

/-- The recency sequence replaced. -/
def State.withResident (s : State) (l : List (Nat × Nat)) : State := { s with resident := l }

/-- The free-frame queue replaced. -/
def State.withFreeFrames (s : State) (l : List Nat) : State := { s with freeFrames := l }

/-- `fatal <- 1` (R33). -/
def State.setFatal (s : State) : State := { s with fatal := true }

/-- The host's remaining moves replaced. -/
def State.withHost (s : State) (moves : List HostMove) : State := { s with host := moves }

/-! ### Answering -/

/-- The next free response: any value in every field, within the field's width (R78, U9; assumption 6). -/
def State.freeResponse (s : State) : Response := trimResponse s.cfg (Config.freeResponse s.draws)

/-- A response: the fields `define` sets, and a fresh free value in every other (R78, U9). -/
def State.respond (s : State) (define : Response → Response) : State :=
  { s with resp := define s.freeResponse, draws := s.draws + 1 }

/-- The answer `OK` with the fields `define` sets (R15). -/
def State.respondOk (s : State) (define : Response → Response) : State :=
  s.respond (fun r => { define r with status := .ok })

/-- A signal answered: its status and no other field (R15, R210). -/
def State.signal (s : State) (st : Status) : State := s.respond (fun r => { r with status := st })

/-- The panic (R221): the flag is set and the answer is `FATAL`; what the command wrote before stays. -/
def State.panic (s : State) : State := s.setFatal.signal .fatal

/-- Every command begins here (R217, R222): while `fatal` is 1 it answers `FATAL` and changes nothing. -/
def unlessFatal (s : State) (run : Host.Outcome State Fault Refusal) : Host.Outcome State Fault Refusal :=
  if s.fatal then .next (s.signal .fatal) else run

/-- A command with a reserved opcode (R77); `fatal` has priority (R217). -/
def illegalCommand (s : State) : Host.Outcome State Fault Refusal :=
  unlessFatal s (.next (s.signal .illegalCommand))

/-- The fields a successful translation defines (R145, R191). -/
def TranslationResult.define (t : TranslationResult) (r : Response) : Response :=
  { r with vpn := t.vpn, offset := t.offset, frame := t.frame, pa := t.pa, va := t.va, raw := t.raw }

/-- The fields a page fault defines (R143): the VPN, whether a stale entry exists, and the stale entry if it does. -/
def definePageFault (v : Nat) (stale : Option Entry) (r : Response) : Response :=
  match stale with
  | none => { r with status := .pageFault, vpn := v, entrySome := false }
  | some e =>
    { r with status := .pageFault, vpn := v, entrySome := true, entryPresent := e.present, entryFrame := e.frame,
             raw := e.raw }

/-- The answer of TRANSLATE (R140). -/
def State.respondTranslation (s : State) : Translation → State
  | .ok r => s.respondOk r.define
  | .pageFault v stale => s.respond (definePageFault v stale)
  | .addressOutOfRange => s.signal .addressOutOfRange
  | .invalidConfiguration => s.signal .invalidConfiguration

/-! ### The recency order -/

/-- `touch` of a page (R160): a resident page moves to the most-recent end, and any other page changes nothing. -/
def State.touch (s : State) (v : Nat) : State := s.withResident (moveToBack s.resident v)

/-! ### The page fault: entry, handler, return (R219) -/

/-- The end of frame acquisition: a frame and the state it was taken from, or the state a panic starts from. -/
inductive Acquired where
  | frame (f : Nat) (s : State)
  | panicked (s : State)

/-- The victim's entry after an eviction: only the present bit changes, in the attribute and in the raw word (R166). -/
def evictedEntry (c : AddressSpaceConfig) (e : Entry) : Entry :=
  { present := false, frame := e.frame, raw := setPresent c.frameBits e.raw false }

/-- Eviction of the least recently used page (R166). A victim without an entry is an impossible path on which the page has
already left `resident` (R169; assumption 11 for a victim whose VPN has no slot). -/
def evictOldest (s : State) : Acquired :=
  match s.resident with
  | [] => .panicked s
  | (u, f) :: rest =>
    match ptRead s.pt u with
    | none => .panicked (s.withResident rest)
    | some e => .frame f ((s.withResident rest).withPt (ptWrite s.pt u (evictedEntry s.cfg.space e)))

/-- Step 1, frame acquisition (R163, R165, R166): the front of the free queue, or else an eviction. -/
def acquireFrame (s : State) : Acquired :=
  match s.freeFrames with
  | f :: rest => .frame f (s.withFreeFrames rest)
  | [] => evictOldest s

/-- The raw word a load starts from: the stale entry's, or zero when the slot was `none` (R167). -/
def loadBase (stale : Option Entry) : Nat :=
  match stale with
  | none => 0
  | some e => e.raw

/-- The entry a load writes (R167). -/
def loadedEntry (c : AddressSpaceConfig) (base : Nat) (f : Nat) : Entry :=
  { present := true, frame := f, raw := loadRaw c.frameBits base f }

/-- Step 2, table update (R167). -/
def State.loadPage (s : State) (v : Nat) (base : Nat) (f : Nat) : State :=
  s.withPt (ptWrite s.pt v (loadedEntry s.cfg.space base f))

/-- Step 3, recency update (R168). -/
def State.appendResident (s : State) (v : Nat) (f : Nat) : State := s.withResident (s.resident ++ [(v, f)])

/-- The end of the fault handler. -/
inductive Handled where
  | loaded (f : Nat) (s : State)
  | panicked (s : State)
  | refused

/-- Steps 2 and 3 after a frame has been acquired; a frame that does not fit is the third impossible path (R169). -/
def finishLoad (v : Nat) (base : Nat) : Acquired → Handled
  | .panicked s => .panicked s
  | .frame f s =>
    if frameOverflows s.cfg.space.frameBits f then .panicked s
    else .loaded f ((s.loadPage v base f).appendResident v f)

/-- `handle_fault(v)` for a VPN that has a slot (R163): a resident page is refused (R164), and the stale entry is read
before anything is written. -/
def handleFault (s : State) (v : Nat) : Handled :=
  if (findKey s.resident v).isSome then .refused
  else finishLoad v (loadBase (ptRead s.pt v)) (acquireFrame s)

/-- Return from a page fault (R195, R219): the faulting translation runs again on the updated table, and anything but
success is the panic (R196). -/
def returnFromPageFault (s : State) (va : Int) : State :=
  match translateVa s.cfg.space s.pt va with
  | .ok r => s.respondOk r.define
  | _ => s.panic

/-- Taking a page fault inside RESOLVE (R194, R219): the handler runs for the faulting VPN, and control returns to the
retry. A handler that panics ends the command (R196). -/
def takePageFault (s : State) (va : Int) (v : Nat) : Host.Outcome State Fault Refusal :=
  match handleFault s v with
  | .loaded _ t => .next (returnFromPageFault t va)
  | .panicked t => .next t.panic
  | .refused => .refused (.pageAlreadyResident v)

/-! ### Reset -/

/-- A reset of a running block (R240): the state is built anew from the image, the constants stay (R246; assumption 15),
and an image that breaks the premises of R241 is refused (U1 to U3). -/
def resetBlock (s : State) (img : ResetImage) : Host.Outcome State Fault Refusal :=
  if launchAdmitted s.cfg img then .next (State.launch s.cfg img s.draws s.host) else .refused .launchRefused

end Sys2Proof.Machine
end

