-- ==== Sys2Proof/Machine/Codec.lean ====
section
/-! DEFINITION. The three codec commands (spec 41_codec.md R120 to R128): they read no state but `fatal` and write none. -/

namespace Sys2Proof.Machine

/-- `DECODE raw` (R120). -/
def execDecode (raw : Nat) (s : State) : Host.Outcome State Fault Refusal :=
  unlessFatal s <| .next <| s.respondOk fun r =>
    { r with
      frame         := frameField s.cfg.space.frameBits raw
      present       := presentBit s.cfg.space.frameBits raw
      protection    := protectionBit s.cfg.space.frameBits raw
      modified      := modifiedBit s.cfg.space.frameBits raw
      referenced    := referencedBit s.cfg.space.frameBits raw
      cacheDisabled := cacheDisableBit s.cfg.space.frameBits raw }

/-- `SET_PRESENT raw, value` (R122). -/
def execSetPresent (raw : Nat) (value : Bool) (s : State) : Host.Outcome State Fault Refusal :=
  unlessFatal s <| .next <| s.respondOk fun r => { r with raw := setPresent s.cfg.space.frameBits raw value }

/-- `SET_FRAME raw, new_frame` (R124); a frame that does not fit is an error and is never masked (R126). -/
def execSetFrame (raw : Nat) (newFrame : Nat) (s : State) : Host.Outcome State Fault Refusal :=
  unlessFatal s <|
    if frameOverflows s.cfg.space.frameBits newFrame then .next (s.signal .invalidConfiguration)
    else .next <| s.respondOk fun r => { r with raw := setFrame s.cfg.space.frameBits raw newFrame }

end Sys2Proof.Machine
end

