-- ==== Sys2Proof/Machine/Lru.lean ====
section
/-! DEFINITION. The two commands of the LRU frame manager (spec 43_lru.md R160 to R176). -/

namespace Sys2Proof.Machine

/-- `TOUCH vpn` (R160): it cannot fail, and a number that is no key of `resident` changes nothing (R161). -/
def execTouch (vpn : Int) (s : State) : Host.Outcome State Fault Refusal :=
  unlessFatal s <|
    match keyOperand vpn with
    | none => .next (s.respondOk id)
    | some v => .next ((s.touch v).respondOk id)

/-- `HANDLE_FAULT vpn` (R163): the range check first (R164, R217). -/
def execHandleFault (vpn : Int) (s : State) : Host.Outcome State Fault Refusal :=
  unlessFatal s <|
    match slotOperand s.cfg.space vpn with
    | none => .next (s.signal .addressOutOfRange)
    | some v =>
      match handleFault s v with
      | .loaded f t => .next (t.respondOk fun r => { r with frame := f })
      | .panicked t => .next t.panic
      | .refused => .refused (.pageAlreadyResident v)

end Sys2Proof.Machine
end

