-- ==== Sys2Proof/Machine/Resolve.lean ====
section
/-! DEFINITION. RESOLVE (spec 44_resolve.md R190 to R201): attempt, fault, retry. -/

namespace Sys2Proof.Machine

/-- `RESOLVE va` (R190): a hit touches the page (R192), an error passes through with no state change (R193), and a page
fault is taken inside the block (R194). -/
def execResolve (va : Int) (s : State) : Host.Outcome State Fault Refusal :=
  unlessFatal s <|
    match translateVa s.cfg.space s.pt va with
    | .ok r => .next ((s.touch r.vpn).respondOk r.define)
    | .addressOutOfRange => .next (s.signal .addressOutOfRange)
    | .invalidConfiguration => .next (s.signal .invalidConfiguration)
    | .pageFault v _ => takePageFault s va v

end Sys2Proof.Machine
end

