-- ==== Sys2Proof/Machine/Translate.lean ====
section
/-! DEFINITION. TRANSLATE (spec 42_translate.md R140 to R148): it reads the store and writes nothing. -/

namespace Sys2Proof.Machine

/-- `TRANSLATE va` (R140). -/
def execTranslate (va : Int) (s : State) : Host.Outcome State Fault Refusal :=
  unlessFatal s (.next (s.respondTranslation (translateVa s.cfg.space s.pt va)))

end Sys2Proof.Machine
end

