-- ==== Sys2Proof/Machine/Dispatch.lean ====
section
/-! DEFINITION. One arm per command (spec 30_encoding.md R76). No arm tests the invariants: in a state that breaks INV-E, which
R26 and D9 call refused, each command runs by its pseudocode; this is the model's choice (DESIGN CHOICE, assumption 23, unsafe in
those states only), as for INV-L and INV-K (assumption 10). -/

namespace Sys2Proof.Machine

def exec (i : Instr) (s : State) : Host.Outcome State Fault Refusal :=
  match i with
  | .translate va => Sys2Proof.Machine.execTranslate va s
  | .resolve va => Sys2Proof.Machine.execResolve va s
  | .touch vpn => Sys2Proof.Machine.execTouch vpn s
  | .handleFault vpn => Sys2Proof.Machine.execHandleFault vpn s
  | .decode raw => Sys2Proof.Machine.execDecode raw s
  | .setPresent raw value => Sys2Proof.Machine.execSetPresent raw value s
  | .setFrame raw newFrame => Sys2Proof.Machine.execSetFrame raw newFrame s

end Sys2Proof.Machine
end

