-- ==== Sys2Proof/Machine/Port.lean ====
section
/-! DEFINITION. What the block does with a move of the host (spec 70_reset_and_hazards.md R248, R250): a command is decoded
and run to completion, a reset rebuilds the state. -/

namespace Sys2Proof.Machine

/-- One command presented on the port (R73): the command the record stands for, or the answer to a reserved opcode
(R77). -/
def runCommand (c : Command) (s : State) : Host.Outcome State Fault Refusal :=
  match decodeCommand c with
  | .instr i => exec i s
  | .rejected _ => illegalCommand s

/-- The host's next move, and none when the host presents nothing: the block waits (R240; assumption 4). -/
def takeMove (s : State) : Host.Outcome State Fault Refusal :=
  match s.host with
  | [] => .next s
  | .command c :: rest => runCommand c (s.withHost rest)
  | .reset img :: rest => resetBlock (s.withHost rest) img

/-- The host will present, as its very next move, the command of a packed word of the opcode table (R74). -/
def presentTableWord (s : State) (nbits w : Nat) : State :=
  s.withHost (.command (unpack PortWidths.table (w % 2 ^ nbits)) :: s.host)

end Sys2Proof.Machine
end

