-- ==== Sys2Proof/Machine/Configure.lean ====
section
/-! DEFINITION. The elaboration-time functions that build a configuration (spec 40_config.md R100 to R108): the size-string
parser, the validation, and the two forms of `create`. They run before the block exists and have no opcode (R82). -/

namespace Sys2Proof.Machine

/-- The field `InvalidConfiguration` names: one of the three of R104, or a member of the memory pair (R100, R105). -/
inductive ConfigField where
  | pageSizeBytes
  | frameCount
  | virtualPageCount
  | physicalMem
  | virtualMem
  deriving DecidableEq, Repr

/-- The signals of elaboration, with what they carry (60_exceptions.md R210): the offending field and its value. `none` is the value
of a parameter that was not supplied, and of no other. -/
inductive ConfigSignal where
  | invalidConfiguration (field : ConfigField) (value : Option Int)
  | invalidSize
  deriving DecidableEq, Repr

/-- The end of an elaboration: a value, a signal, or a refusal (R16). -/
inductive Elaborated (α : Type) where
  | ok (a : α)
  | signal (s : ConfigSignal)
  /-- A size string whose meaning depends on the open white-space policy (R102, U12; assumption 12): safe. -/
  | sizeTextRefused
  /-- Port widths below the bounds of R9, or an initial table or orders outside the premises of R241 (assumption 9):
  safe. -/
  | launchRefused
  deriving DecidableEq, Repr

/-- Go on with the value, and end with the signal or refusal otherwise. -/
def Elaborated.andThen {α β : Type} (x : Elaborated α) (k : α → Elaborated β) : Elaborated β :=
  match x with
  | .ok a => k a
  | .signal s => .signal s
  | .sizeTextRefused => .sizeTextRefused
  | .launchRefused => .launchRefused

/-! ### Size strings (R102) -/

/-- A decimal digit. -/
def isDigit (c : Char) : Bool := 48 ≤ c.toNat && c.toNat ≤ 57

/-- White space: space, tab, line feed, carriage return. -/
def isSpace (c : Char) : Bool := c.toNat == 32 || c.toNat == 9 || c.toNat == 10 || c.toNat == 13

/-- The code of a character with upper-case letters read as lower-case ones. -/
def caseless (c : Char) : Nat := if 65 ≤ c.toNat ∧ c.toNat ≤ 90 then c.toNat + 32 else c.toNat

/-- The value of a string of decimal digits. -/
def digitsValue (ds : List Char) : Nat := ds.foldl (fun n c => 10 * n + (c.toNat - 48)) 0

/-- The binary exponent of a unit's multiplier: `B`, `KiB` = 2^10, `MiB` = 2^20, `GiB` = 2^30, without regard to letter
case (R102). -/
def unitExponent (u : List Char) : Option Nat :=
  if u.map caseless = [98] then some 0
  else if u.map caseless = [107, 105, 98] then some 10
  else if u.map caseless = [109, 105, 98] then some 20
  else if u.map caseless = [103, 105, 98] then some 30
  else none

/-- A size string taken apart: the digits before and after the point, the unit's exponent, and whether white space stood
anywhere in it. -/
structure SizeShape where
  whole    : List Char
  fraction : List Char
  exponent : Nat
  spaced   : Bool
  deriving DecidableEq, Repr

/-- The digits after a decimal point and what follows them; no point is an empty fraction, and a point with no digit
after it is malformed (R102). -/
def fractionDigits : List Char → Option (List Char × List Char)
  | [] => some ([], [])
  | c :: rest =>
    if c = '.' then
      if rest.takeWhile isDigit = [] then none else some (rest.takeWhile isDigit, rest.dropWhile isDigit)
    else some ([], c :: rest)

/-- The shape `NUMBER UNIT` of R102, read with white space admitted before, between and after the two parts; `none` is
a malformed string under either white-space policy. -/
def sizeShape (s : List Char) : Option SizeShape :=
  let body := s.dropWhile isSpace
  let whole := body.takeWhile isDigit
  if whole = [] then none
  else
    match fractionDigits (body.dropWhile isDigit) with
    | none => none
    | some (fraction, rest) =>
      match unitExponent ((rest.dropWhile isSpace).reverse.dropWhile isSpace).reverse with
      | none => none
      | some e => some { whole := whole, fraction := fraction, exponent := e, spaced := s.any isSpace }

/-- The number of bytes of a shape, an exact rational, when it is a whole number (R102). -/
def SizeShape.bytes (z : SizeShape) : Option Nat :=
  let numerator := digitsValue (z.whole ++ z.fraction) * 2 ^ z.exponent
  let denominator := 10 ^ z.fraction.length
  if numerator % denominator = 0 then some (numerator / denominator) else none

/-- `PARSE_SIZE(s)` (R102). A string that is a size only if white space is allowed is refused (U12). -/
def parseSize (s : List Char) : Elaborated Nat :=
  match sizeShape s with
  | none => .signal .invalidSize
  | some z =>
    match z.bytes with
    | none => .signal .invalidSize
    | some n => if z.spaced then .sizeTextRefused else .ok n

/-- A size is given as a byte count or as a size-with-unit string (R101). -/
inductive SizeArg where
  | bytes (n : Int)
  | text (s : List Char)
  deriving DecidableEq, Repr

/-- A size argument in bytes (R101). -/
def SizeArg.toBytes : SizeArg → Elaborated Int
  | .bytes n => .ok n
  | .text s => (parseSize s).andThen (fun n => .ok (n : Int))

/-- An optional size argument in bytes. -/
def optionalBytes : Option SizeArg → Elaborated (Option Int)
  | none => .ok none
  | some a => a.toBytes.andThen (fun n => .ok (some n))

/-! ### Validation and construction -/

/-- `n` is `2^k` for some natural `k` (R104). -/
def isPowerOfTwo (n : Int) : Bool := decide (n = 2 ^ n.toNat.log2)

/-- One field's validation (R104): its exponent, or `InvalidConfiguration` naming it and its value. -/
def validateField (f : ConfigField) (n : Int) : Elaborated Nat :=
  if isPowerOfTwo n then .ok n.toNat.log2 else .signal (.invalidConfiguration f (some n))

/-- `CONFIG.CREATE_COUNTS` (R103), the fields validated in the order R104 lists them. -/
def createCounts (pageSizeBytes frameCount virtualPageCount : Int) : Elaborated AddressSpaceConfig :=
  (validateField .pageSizeBytes pageSizeBytes).andThen fun o =>
  (validateField .frameCount frameCount).andThen fun f =>
  (validateField .virtualPageCount virtualPageCount).andThen fun v =>
  .ok { offsetBits := o, frameBits := f, vpnBits := v }

/-- `CONFIG.CREATE_MEM` (R105): the page size first, then the two divisibility checks, then the counts. A size that does not divide
is the offending field the signal names, with its bytes (R210; DEDUCED, assumption 21). -/
def createMem (pageSizeBytes physicalMem virtualMem : Int) : Elaborated AddressSpaceConfig :=
  (validateField .pageSizeBytes pageSizeBytes).andThen fun _ =>
  if physicalMem % pageSizeBytes ≠ 0 then .signal (.invalidConfiguration .physicalMem (some physicalMem))
  else if virtualMem % pageSizeBytes ≠ 0 then .signal (.invalidConfiguration .virtualMem (some virtualMem))
  else createCounts pageSizeBytes (physicalMem / pageSizeBytes) (virtualMem / pageSizeBytes)

/-- The arguments of `create` (R100). -/
structure CreateArgs where
  pageSize         : SizeArg
  frameCount       : Option Int
  virtualPageCount : Option Int
  physicalMem      : Option SizeArg
  virtualMem       : Option SizeArg
  deriving DecidableEq, Repr

/-- The signal for missing or contradictory parameters (R100, R210): it names one of the four, with the value supplied for it. Which
one is a free value (DESIGN CHOICE, assumption 24). -/
def wrongPairs (pageSizeBytes : Int) (frameCount virtualPageCount physicalMem virtualMem : Option Int) : ConfigSignal :=
  match Config.offendingParameter pageSizeBytes frameCount virtualPageCount physicalMem virtualMem % 4 with
  | 0 => .invalidConfiguration .frameCount frameCount
  | 1 => .invalidConfiguration .virtualPageCount virtualPageCount
  | 2 => .invalidConfiguration .physicalMem physicalMem
  | _ => .invalidConfiguration .virtualMem virtualMem

/-- The table of R100 over converted sizes: exactly one of the two pairs, both members of it and none of the other. -/
def createFromPair (pageSizeBytes : Int) :
    Option Int → Option Int → Option Int → Option Int → Elaborated AddressSpaceConfig
  | some f, some v, none, none => createCounts pageSizeBytes f v
  | none, none, some p, some v => createMem pageSizeBytes p v
  | f, v, p, m => .signal (wrongPairs pageSizeBytes f v p m)

/-- `create` (R100). Strings are converted before any other check (R101; the order of two strings, assumption 14). -/
def create (a : CreateArgs) : Elaborated AddressSpaceConfig :=
  a.pageSize.toBytes.andThen fun ps =>
  (optionalBytes a.physicalMem).andThen fun pm =>
  (optionalBytes a.virtualMem).andThen fun vm =>
  createFromPair ps a.frameCount a.virtualPageCount pm vm

end Sys2Proof.Machine
end

