-- ==== Sys2Proof/Machine/Boot.lean ====
section
/-! DEFINITION. Bringing a block into being (spec 70_reset_and_hazards.md R247): build the configuration, build the initial
table, reset. -/

namespace Sys2Proof.Machine

/-- The boot sequence of R247 up to the first command: an invalid configuration ends with its signal and no block, and
widths below the bounds of R9 or an image outside the premises of R241 are refused. -/
def boot (a : CreateArgs) (w : PortWidths) (img : ResetImage) : Elaborated State :=
  (create a).andThen fun c =>
  if Params.ok { space := c, widths := w } ∧ launchAdmitted { space := c, widths := w } img then
    .ok (State.launch { space := c, widths := w } img 0 [])
  else .launchRefused

end Sys2Proof.Machine
end

