-- ==== Sys2Proof/Machine/Sequencer.lean ====
section
/-! DEFINITION. The sequencer phases inside one RESOLVE (spec 10_state.md R37), one write of the state at a time, in the
normative order of the phases. The machine's step takes a whole command (R37, R54); an obligation says that running these
phases from XLATE to IDLE gives what the one-step RESOLVE gives. -/

namespace Sys2Proof.Machine

/-- A phase with the values the sequencer keeps in it (R37, R219). -/
inductive Phase where
  | idle
  | xlate (va : Int)
  | hit (r : TranslationResult)
  | touch (r : TranslationResult)
  | error (st : Status)
  | fault (va : Int) (v : Nat)
  | acquire (va : Int) (v : Nat) (base : Nat)
  | update (va : Int) (v : Nat) (base : Nat) (f : Nat)
  | recency (va : Int) (v : Nat) (f : Nat)
  | retry (va : Int)
  | respondOk (r : TranslationResult)
  | respondSignal (st : Status)
  | panicking
  deriving DecidableEq, Repr

/-- What one phase leads to: the next phase and the state it starts in, or a refusal. -/
inductive PhaseResult where
  | goes (p : Phase) (s : State)
  | refused (v : Nat)

/-- One phase of a RESOLVE (R37). -/
def phaseStep (s : State) : Phase → PhaseResult
  | .idle => .goes .idle s
  | .xlate va =>
    match translateVa s.cfg.space s.pt va with
    | .ok r => .goes (.hit r) s
    | .addressOutOfRange => .goes (.error .addressOutOfRange) s
    | .invalidConfiguration => .goes (.error .invalidConfiguration) s
    | .pageFault v _ => .goes (.fault va v) s
  | .hit r => .goes (.touch r) s
  | .touch r => .goes (.respondOk r) (s.touch r.vpn)
  | .error st => .goes (.respondSignal st) s
  | .fault va v =>
    if (findKey s.resident v).isSome then .refused v
    else .goes (.acquire va v (loadBase (ptRead s.pt v))) s
  | .acquire va v base =>
    match acquireFrame s with
    | .frame f t => .goes (.update va v base f) t
    | .panicked t => .goes .panicking t
  | .update va v base f =>
    if frameOverflows s.cfg.space.frameBits f then .goes .panicking s
    else .goes (.recency va v f) (s.loadPage v base f)
  | .recency va v f => .goes (.retry va) (s.appendResident v f)
  | .retry va =>
    match translateVa s.cfg.space s.pt va with
    | .ok r => .goes (.respondOk r) s
    | _ => .goes .panicking s
  | .panicking => .goes (.respondSignal .fatal) s.setFatal
  | .respondOk r => .goes .idle (s.respondOk r.define)
  | .respondSignal st => .goes .idle (s.signal st)

/-- `n` phases at most, ending at IDLE; `none` when IDLE has not been reached. -/
def runPhases : Nat → State → Phase → Option (Host.Outcome State Fault Refusal)
  | 0, s, .idle => some (.next s)
  | 0, _, _ => none
  | n + 1, s, p =>
    match phaseStep s p with
    | .goes q t => runPhases n t q
    | .refused v => some (.refused (.pageAlreadyResident v))

end Sys2Proof.Machine
end

