-- ==== Sys2Proof/Safety.lean ====
section
/-! DEFINITION. The invariants of the block (spec 10_state.md R26, R30, R31) and the words the claims use: which states are
good, when two states are the same block, and when two responses give the same result. -/

namespace Sys2Proof.Machine

/-- The page-table store is a map over the slots the block has (R23): canonical, and every key below
`virtual_page_count`. -/
abbrev State.StoreOk (s : State) : Prop :=
  Memory.wf s.pt ∧ ∀ x ∈ s.pt, x.1 < s.cfg.space.virtualPageCount

/-- INV-E (R26): every entry agrees with its raw word. No launch builds a state without it; that `exec` runs the commands on such a
state all the same is the model's choice (assumption 23). -/
abbrev State.InvE (s : State) : Prop := ∀ x ∈ s.pt, entryAgrees s.cfg.space x.2

/-- Every entry's attributes fit their fields (R24; premise P3 of R241). -/
abbrev State.WidthsOk (s : State) : Prop := ∀ x ∈ s.pt, entryFits s.cfg.widths x.2

/-- INV-L1 (R30): the frames of `resident` together with `free_frames` are the frame numbers, each once. -/
abbrev State.InvL1 (s : State) : Prop :=
  (s.resident.map Prod.snd ++ s.freeFrames).Perm (List.range s.cfg.space.frameCount)

/-- INV-L2 (R30). -/
abbrev State.InvL2 (s : State) : Prop := s.resident.length + s.freeFrames.length = s.cfg.space.frameCount

/-- `resident` is a mapping over VPNs (R28): its keys are distinct and in range. -/
abbrev State.ResidentOk (s : State) : Prop :=
  (s.resident.map Prod.fst).Nodup ∧ ∀ x ∈ s.resident, x.1 < s.cfg.space.virtualPageCount

/-- INV-K (R31): the frame `resident` gives a page is the frame of its entry when the entry holds one, and a page whose
entry holds no frame is not resident. -/
abbrev State.InvK (s : State) : Prop :=
  ∀ v < s.cfg.space.virtualPageCount,
    findKey s.resident v = ((ptRead s.pt v).filter (holdsFrame s.cfg.space)).map Entry.frame

/-- The invariants together, with the width bounds of R9. -/
abbrev State.Inv (s : State) : Prop :=
  s.cfg.ok ∧ s.StoreOk ∧ s.InvE ∧ s.WidthsOk ∧ s.ResidentOk ∧ s.InvL1 ∧ s.InvL2 ∧ s.InvK

/-- A good state: the invariants hold and the block has not panicked (60_exceptions.md R221). -/
abbrev State.Good (s : State) : Prop := s.Inv ∧ s.fatal = false

/-- The block is the same: its constants and the whole of the spec's state (R20), whatever the response port holds. -/
abbrev SameBlock (s t : State) : Prop :=
  t.cfg = s.cfg ∧ t.pt = s.pt ∧ t.resident = s.resident ∧ t.freeFrames = s.freeFrames ∧ t.fatal = s.fatal

/-- Only an answer was given: the block and the host's remaining moves are the same. -/
abbrev OnlyAnswers (s t : State) : Prop := SameBlock s t ∧ t.host = s.host

/-- The defined fields of a `TranslationResult` response (30_encoding.md R78, 42_translate.md R145). -/
abbrev Gives (r : Response) (t : TranslationResult) : Prop :=
  r.status = .ok ∧ r.vpn = t.vpn ∧ r.offset = t.offset ∧ r.frame = t.frame ∧ r.pa = t.pa ∧ r.va = t.va ∧ r.raw = t.raw

/-- Every field of a response, defined or free, fits the width R78 gives it; so a field of width 0 carries 0. -/
abbrev ResponseFits (p : Params) (r : Response) : Prop :=
  r.vpn < 2 ^ p.space.vpnBits ∧ r.offset < 2 ^ p.space.offsetBits ∧ r.frame < 2 ^ p.space.frameBits ∧
  r.pa < 2 ^ p.space.physicalAddressBits ∧ r.va < 2 ^ p.space.virtualAddressBits ∧ r.raw < 2 ^ p.widths.rw ∧
  r.entryFrame < 2 ^ p.widths.fw

/-- The value of a string of decimal digits, the last one the units: Mathlib's `Nat.ofDigits`, beside which the parser's own
`digitsValue` can be held. -/
abbrev decimalValue (ds : List Char) : Nat := Nat.ofDigits 10 (ds.reverse.map fun c => c.toNat - '0'.toNat)

/-- The units of R102 in lower case, each with the exponent of two of its multiplier. -/
abbrev sizeUnits : List (String × Nat) := [("b", 0), ("kib", 10), ("mib", 20), ("gib", 30)]

/-- `s` has the shape NUMBER UNIT of R102 with no white space: digits `ds`, then nothing or a point with the digits `fs`, then
a unit in any letter case. Its size is `decimalValue (ds ++ fs) * 2 ^ e / 10 ^ fs.length` bytes. -/
abbrev IsSizeText (s ds fs : List Char) (e : Nat) : Prop :=
  ds ≠ [] ∧ (∀ c ∈ ds ++ fs, c.isDigit = true) ∧
  ∃ u : List Char, (∃ x ∈ sizeUnits, u.map Char.toLower = x.1.toList ∧ e = x.2) ∧
    s = ds ++ (if fs = [] then u else '.' :: fs ++ u)

/-- `s` is the size of a whole number of bytes when the white space before, between and after its two parts is left out; it may
have none. -/
abbrev IsSizeButForSpace (s : List Char) : Prop :=
  ∃ (before number between unit behind ds fs : List Char) (e n : Nat),
    s = before ++ number ++ between ++ unit ++ behind ∧
    (∀ c ∈ before ++ between ++ behind, c.isWhitespace = true) ∧
    IsSizeText (number ++ unit) ds fs e ∧ number = ds ++ (if fs = [] then [] else '.' :: fs) ∧
    n * 10 ^ fs.length = decimalValue (ds ++ fs) * 2 ^ e

/-- The page at VPN `v` is loaded in frame `f`: its entry is present with that frame. -/
abbrev State.Maps (s : State) (v : Nat) (f : Nat) : Prop :=
  ∃ e, ptRead s.pt v = some e ∧ e.present = true ∧ e.frame = f

end Sys2Proof.Machine
end

