-- ==== Sys2Proof/Certificates/Slice0/Obligations.lean ====
section
/-! DEFINITION. The statements for the provers. Each docstring names the rules it formalises. A response is spoken of through
`t.resp`; a field the rule leaves undefined is not mentioned, except where a statement says that it is the free value. -/

open Sys2Proof Sys2Proof.Machine

/-! ### Encoding -/

/-- Decoding the packed word of a well-formed command gives the command back, for every port width and every operand the
encoding admits (R73 to R76). -/
def Obligations.DecodingInvertsEncoding : Prop :=
  ∀ (w : PortWidths) (i : Instr), i.wellFormed w → decodePacked w (encodePacked w i) = .instr i

/-- Words written out from the field layout of R74 decode to the commands they stand for, one of each opcode (R76). -/
def Obligations.WordsOfTheSpecDecode : Prop :=
  decodePacked .table 0x100080000 = .instr (.translate (-524288)) ∧
  decodePacked .table 0x2000FFFFF = .instr (.resolve (-1)) ∧
  decodePacked .table 0x300000009 = .instr (.touch 9) ∧
  decodePacked .table 0x400000010 = .instr (.handleFault 16) ∧
  decodePacked .table 0x50FB00000 = .instr (.decode 0b11111011) ∧
  decodePacked .table 0x621500000 = .instr (.setPresent 0b10101 false) ∧
  decodePacked .table 0x7F1500000 = .instr (.setFrame 0b10101 15) ∧
  decodePacked .table 0x1FAB01000 = .instr (.translate 4096)

/-- A field a command does not use is ignored (R73, R75): two records that agree in the opcode and in the fields the
command reads stand for the same command. -/
def Obligations.UnusedFieldsAreIgnored : Prop :=
  ∀ c d : Command, c.op = d.op →
    (1 ≤ c.op.toNat → c.op.toNat ≤ 4 → c.addr = d.addr) →
    (5 ≤ c.op.toNat → c.op.toNat ≤ 7 → c.raw = d.raw) →
    (c.op.toNat = 6 → c.val % 2 = d.val % 2) → (c.op.toNat = 7 → c.val = d.val) →
    decodeCommand c = decodeCommand d

/-- R77: opcodes `0x0` and `0x8` to `0xF` are reserved; presented to a block that has not panicked, such a command answers
ILLEGAL_COMMAND (status 5) and changes no state; the all-zero word is not a command. (Status numbers: R79.) -/
def Obligations.ReservedOpcodesAreIllegal : Prop :=
  (∀ (s : State) (c : Command) (rest : List HostMove),
    s.host = .command c :: rest → s.fatal = false → (c.op.toNat = 0 ∨ 8 ≤ c.op.toNat) →
    ∃ t, step s = .next t ∧ t.resp = { s.freeResponse with status := .illegalCommand } ∧
      SameBlock s t ∧ t.host = rest) ∧
  (∀ w : PortWidths, decodePacked w 0 = .rejected (.reservedOpcode 0#4)) ∧ Status.illegalCommand.code = 5#3

/-! ### The step -/

/-- A step runs the command that the host presents (R58, R62, R248): when the record decodes to `i`, the step is `exec i` with
the record taken off the host's moves. With no move the block waits (the model's choice, assumption 4). -/
def Obligations.StepRunsTheDecodedCommand : Prop :=
  (∀ (s : State) (c : Command) (rest : List HostMove) (i : Instr),
    s.host = .command c :: rest → decodeCommand c = .instr i → step s = exec i { s with host := rest }) ∧
  (∀ s : State, s.host = [] → step s = .next s)

/-- A word of the opcode table placed as the host's next command runs as the command it decodes to (R74, R76). -/
def Obligations.PlacedTableWordRuns : Prop :=
  ∀ (s : State) (nbits w : Nat) (i : Instr), decodeTableWord nbits w = some i →
    step (s.withFetchWord nbits w) = exec i s

/-- Every command answers or is refused, and the only refusal is that of HANDLE_FAULT or RESOLVE on a page that is already
resident (R164, R194, R198, R253). -/
def Obligations.EveryCommandAnswersOrIsRefusedForAResidentPage : Prop :=
  ∀ (i : Instr) (s : State),
    (∃ t, exec i s = .next t) ∨
    (∃ v : Nat, v ∈ s.resident.map Prod.fst ∧ exec i s = .refused (.pageAlreadyResident v) ∧
      (i = .handleFault v ∨ ∃ va : Int, i = .resolve va ∧ va.toNat / 2 ^ s.cfg.space.offsetBits = v))

/-- A reset rebuilds the whole state from the image (R240, R246), keeps the configuration (assumption 15), and clears
`fatal`; an image outside the premises of R241, orders that do not list the sets of R243 and R244, and a table not in rising
order of the VPN are refused (assumption 9; U1 to U3 say so of the premises). -/
def Obligations.ResetRebuildsTheState : Prop :=
  ∀ (s : State) (img : ResetImage) (rest : List HostMove), s.host = .reset img :: rest →
    (launchAdmitted s.cfg img → ∃ t, step s = .next t ∧ t.cfg = s.cfg ∧ t.pt = img.ptInit ∧
      t.resident.map Prod.fst = img.initOrder ∧
      (∀ x ∈ t.resident, ∃ e, ptRead img.ptInit x.1 = some e ∧ e.present = true ∧ e.frame = x.2) ∧
      t.freeFrames = img.freeOrder ∧ t.fatal = false ∧ t.host = rest) ∧
    (¬ launchAdmitted s.cfg img → step s = .refused .launchRefused)

/-! ### The codec -/

/-- DECODE answers the frame field and the five control bits at their fixed positions and changes nothing (R120). -/
def Obligations.DecodeAnswersEveryField : Prop :=
  ∀ (s : State) (raw : Nat), s.fatal = false →
    ∃ t, exec (.decode raw) s = .next t ∧ t.resp.status = .ok ∧
      t.resp.frame = raw % 2 ^ s.cfg.space.frameBits ∧
      t.resp.present = raw.testBit s.cfg.space.frameBits ∧
      t.resp.protection = raw.testBit (s.cfg.space.frameBits + 1) ∧
      t.resp.modified = raw.testBit (s.cfg.space.frameBits + 2) ∧
      t.resp.referenced = raw.testBit (s.cfg.space.frameBits + 3) ∧
      t.resp.cacheDisabled = raw.testBit (s.cfg.space.frameBits + 4) ∧ OnlyAnswers s t

/-- R121 (the spec's inference from R120 and R70): DECODE is the inverse of packing, for every frame below `2^fb` and every
value of the five bits. -/
def Obligations.DecodeInvertsPacking : Prop :=
  ∀ (s : State) (f : Nat) (p r m a c : Bool), s.fatal = false → f < 2 ^ s.cfg.space.frameBits →
    ∃ t, exec (.decode (f ||| p.toNat <<< s.cfg.space.frameBits ||| r.toNat <<< (s.cfg.space.frameBits + 1)
        ||| m.toNat <<< (s.cfg.space.frameBits + 2) ||| a.toNat <<< (s.cfg.space.frameBits + 3)
        ||| c.toNat <<< (s.cfg.space.frameBits + 4))) s = .next t ∧
      t.resp.status = .ok ∧ t.resp.frame = f ∧ t.resp.present = p ∧ t.resp.protection = r ∧ t.resp.modified = m ∧
      t.resp.referenced = a ∧ t.resp.cacheDisabled = c

/-- R123 (the spec's inference from R120 and R122): SET_PRESENT answers the raw word with bit `fb` equal to the value and
every other bit, the uninterpreted ones too, as it was; so DECODE of the result agrees in every other field. It changes
nothing. -/
def Obligations.SetPresentAssignsOnlyThePresentBit : Prop :=
  ∀ (s : State) (raw : Nat) (value : Bool), s.fatal = false →
    ∃ t, exec (.setPresent raw value) s = .next t ∧ t.resp.status = .ok ∧
      t.resp.raw.testBit s.cfg.space.frameBits = value ∧
      (∀ i, i ≠ s.cfg.space.frameBits → t.resp.raw.testBit i = raw.testBit i) ∧
      (∃ d e, exec (.decode raw) s = .next d ∧ exec (.decode t.resp.raw) s = .next e ∧
        e.resp.present = value ∧ e.resp.frame = d.resp.frame ∧ e.resp.protection = d.resp.protection ∧
        e.resp.modified = d.resp.modified ∧ e.resp.referenced = d.resp.referenced ∧
        e.resp.cacheDisabled = d.resp.cacheDisabled) ∧
      OnlyAnswers s t

/-- R125 (the spec's inference from R120 and R124): SET_FRAME with a frame that fits answers the raw word whose frame field
is the new frame and whose bits from `fb` up are as they were; so DECODE of the result agrees in all five control bits. It
changes nothing. -/
def Obligations.SetFrameReplacesOnlyTheFrameField : Prop :=
  ∀ (s : State) (raw newFrame : Nat), s.fatal = false → newFrame < 2 ^ s.cfg.space.frameBits →
    ∃ t, exec (.setFrame raw newFrame) s = .next t ∧ t.resp.status = .ok ∧
      t.resp.raw % 2 ^ s.cfg.space.frameBits = newFrame ∧
      (∀ i, s.cfg.space.frameBits ≤ i → t.resp.raw.testBit i = raw.testBit i) ∧
      (∃ d e, exec (.decode raw) s = .next d ∧ exec (.decode t.resp.raw) s = .next e ∧
        e.resp.frame = newFrame ∧ e.resp.present = d.resp.present ∧ e.resp.protection = d.resp.protection ∧
        e.resp.modified = d.resp.modified ∧ e.resp.referenced = d.resp.referenced ∧
        e.resp.cacheDisabled = d.resp.cacheDisabled) ∧
      OnlyAnswers s t

/-- R126 (the signal is the spec's decision D13): a frame that does not fit `frame_bits` is never masked: SET_FRAME answers
INVALID_CONFIGURATION and no raw word (the raw field keeps its free value), and the condition is `new_frame >= frame_count`.
-/
def Obligations.SetFrameOverflowIsAnError : Prop :=
  ∀ (s : State) (raw newFrame : Nat), s.fatal = false → s.cfg.space.frameCount ≤ newFrame →
    ∃ t, exec (.setFrame raw newFrame) s = .next t ∧
      t.resp = { s.freeResponse with status := .invalidConfiguration } ∧ OnlyAnswers s t

/-- R129 (the order clause is the spec's inference from R123 and R125): the raw word of a loaded page is the base with the
frame field and the present bit cleared, the frame and the present bit put in; the order of the two steps does not matter. -/
def Obligations.LoadedRawWordIsTheComposition : Prop :=
  ∀ (fb base f : Nat), f < 2 ^ fb →
    loadRaw fb base f = (clearBits (clearBits base (2 ^ fb - 1)) (1 <<< fb)) ||| f ||| (1 <<< fb) ∧
    setPresent fb (setFrame fb base f) true = setFrame fb (setPresent fb base true) f ∧
    (∀ i, (loadRaw fb base f).testBit i =
      if i < fb then f.testBit i else if i = fb then true else base.testBit i)

/-! ### TRANSLATE -/

/-- TRANSLATE of an address in range whose entry is present with a frame in range answers OK with the six components, and
changes nothing (R140, R142, R145). -/
def Obligations.TranslateAnswersThePhysicalAddress : Prop :=
  ∀ (s : State) (va : Nat) (e : Entry), s.fatal = false → va < 2 ^ s.cfg.space.virtualAddressBits →
    ptRead s.pt (va / 2 ^ s.cfg.space.offsetBits) = some e → e.present = true → e.frame < s.cfg.space.frameCount →
    ∃ t, exec (.translate va) s = .next t ∧
      Gives t.resp
        { vpn := va / 2 ^ s.cfg.space.offsetBits, offset := va % 2 ^ s.cfg.space.offsetBits, frame := e.frame,
          pa := e.frame * 2 ^ s.cfg.space.offsetBits + va % 2 ^ s.cfg.space.offsetBits, va := va, raw := e.raw } ∧
      OnlyAnswers s t

/-- R141: the range check comes before any look at the table. TRANSLATE answers ADDRESS_OUT_OF_RANGE, with no other defined
field, exactly when the address is negative or above `2^virtual_address_bits - 1`, whatever the table holds, and nothing
changes. -/
def Obligations.AddressOutOfRangeExactlyOutsideTheRange : Prop :=
  ∀ (s : State) (va : Int), s.fatal = false →
    ∃ t, exec (.translate va) s = .next t ∧ OnlyAnswers s t ∧
      (t.resp.status = .addressOutOfRange ↔ va < 0 ∨ va > 2 ^ s.cfg.space.virtualAddressBits - 1) ∧
      (va < 0 ∨ va > 2 ^ s.cfg.space.virtualAddressBits - 1 →
        t.resp = { s.freeResponse with status := .addressOutOfRange })

/-- R143: for an address in range TRANSLATE answers PAGE_FAULT exactly when the slot is `none` or its entry is not present;
the answer carries the VPN and, when there is one, the stale entry. A frame out of range in a non-present entry is not
examined. -/
def Obligations.PageFaultExactlyWhenAbsentOrNotPresent : Prop :=
  ∀ (s : State) (va : Nat), s.fatal = false → va < 2 ^ s.cfg.space.virtualAddressBits →
    ∃ t, exec (.translate va) s = .next t ∧ OnlyAnswers s t ∧
      (t.resp.status = .pageFault ↔
        ∀ e, ptRead s.pt (va / 2 ^ s.cfg.space.offsetBits) = some e → e.present = false) ∧
      (ptRead s.pt (va / 2 ^ s.cfg.space.offsetBits) = none →
        t.resp.vpn = va / 2 ^ s.cfg.space.offsetBits ∧ t.resp.entrySome = false) ∧
      (∀ e, ptRead s.pt (va / 2 ^ s.cfg.space.offsetBits) = some e → e.present = false →
        t.resp.vpn = va / 2 ^ s.cfg.space.offsetBits ∧ t.resp.entrySome = true ∧ t.resp.entryPresent = false ∧
        t.resp.entryFrame = e.frame ∧ t.resp.raw = e.raw)

/-- A present entry that names a frame `>= frame_count` makes TRANSLATE and RESOLVE answer INVALID_CONFIGURATION with no other
defined field, and nothing changes (R144, R193). -/
def Obligations.CorruptEntryIsInvalidConfiguration : Prop :=
  ∀ (s : State) (va : Nat) (e : Entry), s.fatal = false → va < 2 ^ s.cfg.space.virtualAddressBits →
    ptRead s.pt (va / 2 ^ s.cfg.space.offsetBits) = some e → e.present = true → s.cfg.space.frameCount ≤ e.frame →
    (∃ t, exec (.translate va) s = .next t ∧
      t.resp = { s.freeResponse with status := .invalidConfiguration } ∧ OnlyAnswers s t) ∧
    (∃ t, exec (.resolve va) s = .next t ∧
      t.resp = { s.freeResponse with status := .invalidConfiguration } ∧ OnlyAnswers s t)

/-- TRANSLATE, DECODE, SET_PRESENT and SET_FRAME answer in every state, on every operand, and change nothing: every slot
reads as before, and so do the LRU state, the flag, the constants (R140, R147, 20_memory.md R51). -/
def Obligations.ReadOnlyCommandsAlwaysAnswerAndChangeNothing : Prop :=
  ∀ (s : State) (va : Int) (raw newFrame : Nat) (value : Bool) (i : Instr),
    i ∈ [.translate va, .decode raw, .setPresent raw value, .setFrame raw newFrame] →
    ∃ t, exec i s = .next t ∧ OnlyAnswers s t ∧ ∀ a, ptRead t.pt a = ptRead s.pt a

/-- Every OK answer of TRANSLATE recombines: `pa = (frame << offset_bits) | offset`, `va = (vpn << offset_bits) | offset`,
the offset is below the page size, the VPN is a slot, and `pa` is below `2^physical_address_bits` (R142, R145; the bounds are
the spec's inference). -/
def Obligations.TranslationRecombines : Prop :=
  ∀ (s t : State) (va : Int), exec (.translate va) s = .next t → t.resp.status = .ok →
    (t.resp.va : Int) = va ∧
    t.resp.pa = (t.resp.frame <<< s.cfg.space.offsetBits ||| t.resp.offset) ∧
    t.resp.va = (t.resp.vpn <<< s.cfg.space.offsetBits ||| t.resp.offset) ∧
    t.resp.offset < s.cfg.space.pageSizeBytes ∧ t.resp.vpn < s.cfg.space.virtualPageCount ∧
    t.resp.frame < s.cfg.space.frameCount ∧ t.resp.pa < 2 ^ s.cfg.space.physicalAddressBits

/-- Two addresses of one page get the same status, VPN, frame and raw word, and on OK their physical addresses lie in one
frame at their own offsets; on a page fault they get the same VPN and the same stale entry (R146, the spec's inference from
R140). The fields a status does not define are not compared. -/
def Obligations.AddressesOfOnePageAnswerAlike : Prop :=
  ∀ (s t u : State) (va wa : Nat), s.fatal = false →
    va < 2 ^ s.cfg.space.virtualAddressBits → wa < 2 ^ s.cfg.space.virtualAddressBits →
    va / 2 ^ s.cfg.space.offsetBits = wa / 2 ^ s.cfg.space.offsetBits →
    exec (.translate va) s = .next t → exec (.translate wa) s = .next u →
    t.resp.status = u.resp.status ∧
    (t.resp.status = .ok → t.resp.vpn = u.resp.vpn ∧ t.resp.frame = u.resp.frame ∧ t.resp.raw = u.resp.raw ∧
      t.resp.pa - t.resp.offset = u.resp.pa - u.resp.offset) ∧
    (t.resp.status = .pageFault → t.resp.vpn = u.resp.vpn ∧ t.resp.entrySome = u.resp.entrySome ∧
      (t.resp.entrySome = true → t.resp.entryPresent = u.resp.entryPresent ∧
        t.resp.entryFrame = u.resp.entryFrame ∧ t.resp.raw = u.resp.raw))

/-! ### TOUCH -/

/-- TOUCH of a resident page answers OK and moves the page, with its frame, to the most-recent end; the other pages keep their
order, and nothing else changes (R160). -/
def Obligations.TouchMovesAResidentPageToTheEnd : Prop :=
  ∀ (s : State) (v f : Nat) (older newer : List (Nat × Nat)), s.fatal = false →
    s.resident = older ++ (v, f) :: newer → v ∉ older.map Prod.fst →
    ∃ t, exec (.touch v) s = .next t ∧ t.resp.status = .ok ∧ t.resident = older ++ newer ++ [(v, f)] ∧
      t.cfg = s.cfg ∧ t.pt = s.pt ∧ (∀ a, ptRead t.pt a = ptRead s.pt a) ∧ t.freeFrames = s.freeFrames ∧
      t.fatal = s.fatal ∧ t.host = s.host

/-- TOUCH of a number that is not a key of `resident`, in the VPN range or not, negative or not, answers OK and changes
nothing (R161). -/
def Obligations.TouchOfANonResidentNumberIsANoOp : Prop :=
  ∀ (s : State) (vpn : Int), s.fatal = false → (∀ x ∈ s.resident, (x.1 : Int) ≠ vpn) →
    ∃ t, exec (.touch vpn) s = .next t ∧ t.resp.status = .ok ∧ OnlyAnswers s t

/-! ### HANDLE_FAULT -/

/-- HANDLE_FAULT of a number outside `0 .. virtual_page_count - 1` answers ADDRESS_OUT_OF_RANGE and changes nothing (R164,
first point, the spec's decision D11; R217, item 4). -/
def Obligations.HandleFaultOutOfRange : Prop :=
  ∀ (s : State) (vpn : Int), s.fatal = false → (vpn < 0 ∨ (s.cfg.space.virtualPageCount : Int) ≤ vpn) →
    ∃ t, exec (.handleFault vpn) s = .next t ∧
      t.resp = { s.freeResponse with status := .addressOutOfRange } ∧ OnlyAnswers s t

/-- HANDLE_FAULT of a page that is already resident has no step: it is refused by name, and so is a RESOLVE whose address
faults on such a page, in a state that breaks INV-K (R164, second point; R194; U5; the spec's decision D12; assumption 8). -/
def Obligations.FaultOnAResidentPageIsRefused : Prop :=
  ∀ (s : State) (v : Nat), s.fatal = false → v < s.cfg.space.virtualPageCount → v ∈ s.resident.map Prod.fst →
    exec (.handleFault v) s = .refused (.pageAlreadyResident v) ∧
    (∀ va : Nat, va < 2 ^ s.cfg.space.virtualAddressBits → va / 2 ^ s.cfg.space.offsetBits = v →
      (∀ e, ptRead s.pt v = some e → e.present = false) →
      exec (.resolve va) s = .refused (.pageAlreadyResident v))

/-- HANDLE_FAULT with a free frame: the front of the queue is assigned, the page's entry is rewritten from its own stale raw
word or from zero, the page becomes the most recent one, and no other slot changes (R163, R165, R167, R168, R170). -/
def Obligations.HandleFaultTakesTheFirstFreeFrame : Prop :=
  ∀ (s : State) (v f : Nat) (rest : List Nat), s.fatal = false → v < s.cfg.space.virtualPageCount →
    v ∉ s.resident.map Prod.fst → s.freeFrames = f :: rest → f < s.cfg.space.frameCount →
    ∃ t, exec (.handleFault v) s = .next t ∧ t.resp.status = .ok ∧ t.resp.frame = f ∧
      t.freeFrames = rest ∧ t.resident = s.resident ++ [(v, f)] ∧
      (ptRead s.pt v = none →
        ptRead t.pt v = some { present := true, frame := f, raw := f + 2 ^ s.cfg.space.frameBits }) ∧
      (∀ e, ptRead s.pt v = some e →
        ptRead t.pt v =
          some { present := true, frame := f, raw := loadRaw s.cfg.space.frameBits e.raw f }) ∧
      (∀ a, a ≠ v → ptRead t.pt a = ptRead s.pt a) ∧
      t.cfg = s.cfg ∧ t.fatal = false ∧ t.host = s.host

/-- HANDLE_FAULT with no free frame: the first page of `resident` is evicted, its entry keeps its frame attribute and every
bit of its raw word but the present bit, its frame goes straight to the faulting page, and no other slot changes (R163, R166
to R168, R170, 90_conflicts.md C1). -/
def Obligations.HandleFaultEvictsTheOldestPage : Prop :=
  ∀ (s : State) (v u f : Nat) (rest : List (Nat × Nat)) (e : Entry), s.fatal = false →
    v < s.cfg.space.virtualPageCount → v ∉ s.resident.map Prod.fst → s.freeFrames = [] →
    s.resident = (u, f) :: rest → ptRead s.pt u = some e → f < s.cfg.space.frameCount →
    ∃ t, exec (.handleFault v) s = .next t ∧ t.resp.status = .ok ∧ t.resp.frame = f ∧
      t.freeFrames = [] ∧ t.resident = rest ++ [(v, f)] ∧
      (∃ e', ptRead t.pt u = some e' ∧ e'.present = false ∧ e'.frame = e.frame ∧
        e'.raw.testBit s.cfg.space.frameBits = false ∧
        ∀ i, i ≠ s.cfg.space.frameBits → e'.raw.testBit i = e.raw.testBit i) ∧
      (ptRead s.pt v = none →
        ptRead t.pt v = some { present := true, frame := f, raw := f + 2 ^ s.cfg.space.frameBits }) ∧
      (∀ d, ptRead s.pt v = some d →
        ptRead t.pt v =
          some { present := true, frame := f, raw := loadRaw s.cfg.space.frameBits d.raw f }) ∧
      (∀ a, a ≠ v → a ≠ u → ptRead t.pt a = ptRead s.pt a) ∧
      t.cfg = s.cfg ∧ t.fatal = false ∧ t.host = s.host

/-- The three impossible paths of frame acquisition end in the panic, with only the effects of step 1 (R169, the spec's
decisions D15 and D28). -/
def Obligations.HandleFaultImpossiblePathsPanic : Prop :=
  ∀ (s : State) (v : Nat), s.fatal = false → v < s.cfg.space.virtualPageCount → v ∉ s.resident.map Prod.fst →
    (s.freeFrames = [] → s.resident = [] →
      ∃ t, exec (.handleFault v) s = .next t ∧ t.resp.status = .fatal ∧ t.fatal = true ∧ t.pt = s.pt ∧
        t.resident = [] ∧ t.freeFrames = [] ∧ t.cfg = s.cfg ∧ t.host = s.host) ∧
    (∀ u f rest, s.freeFrames = [] → s.resident = (u, f) :: rest → ptRead s.pt u = none →
      ∃ t, exec (.handleFault v) s = .next t ∧ t.resp.status = .fatal ∧ t.fatal = true ∧ t.pt = s.pt ∧
        t.resident = rest ∧ t.freeFrames = [] ∧ t.cfg = s.cfg ∧ t.host = s.host) ∧
    (∀ f rest, s.freeFrames = f :: rest → s.cfg.space.frameCount ≤ f →
      ∃ t, exec (.handleFault v) s = .next t ∧ t.resp.status = .fatal ∧ t.fatal = true ∧ t.pt = s.pt ∧
        t.resident = s.resident ∧ t.freeFrames = rest ∧ t.cfg = s.cfg ∧ t.host = s.host) ∧
    (∀ u f rest e, s.freeFrames = [] → s.resident = (u, f) :: rest → ptRead s.pt u = some e →
      s.cfg.space.frameCount ≤ f →
      ∃ t, exec (.handleFault v) s = .next t ∧ t.resp.status = .fatal ∧ t.fatal = true ∧
        ptRead t.pt u = some (evictedEntry s.cfg.space e) ∧ (∀ a, a ≠ u → ptRead t.pt a = ptRead s.pt a) ∧
        t.resident = rest ∧ t.freeFrames = [] ∧ t.cfg = s.cfg ∧ t.host = s.host)

/-- The frame of HANDLE_FAULT and RESOLVE in any state: the only slots that can change are the one of the page asked for and,
when no frame is free, the one of the oldest resident page (20_memory.md R51, R219). -/
def Obligations.FaultHandlingWritesOnlyThePageAndTheVictim : Prop :=
  ∀ (s t : State) (v : Nat) (i : Instr),
    (i = .handleFault v ∨ ∃ va : Int, i = .resolve va ∧ va.toNat / 2 ^ s.cfg.space.offsetBits = v) →
    exec i s = .next t →
    t.cfg = s.cfg ∧ t.host = s.host ∧
    ∀ a, a ≠ v → (s.freeFrames = [] → s.resident.head?.map Prod.fst ≠ some a) → ptRead t.pt a = ptRead s.pt a

/-! ### RESOLVE -/

/-- R192: RESOLVE of an address whose page is mapped is a hit. It answers the translation, moves the page to the most-recent
end, and changes nothing else: no slot of the table. Under the invariants the page is resident; a mapped page that is not in
`resident` stays out of it (R161). -/
def Obligations.ResolveHitAnswersAndTouches : Prop :=
  ∀ (s : State) (va : Nat) (e : Entry), s.fatal = false → va < 2 ^ s.cfg.space.virtualAddressBits →
    ptRead s.pt (va / 2 ^ s.cfg.space.offsetBits) = some e → e.present = true → e.frame < s.cfg.space.frameCount →
    ∃ t, exec (.resolve va) s = .next t ∧
      Gives t.resp
        { vpn := va / 2 ^ s.cfg.space.offsetBits, offset := va % 2 ^ s.cfg.space.offsetBits, frame := e.frame,
          pa := e.frame * 2 ^ s.cfg.space.offsetBits + va % 2 ^ s.cfg.space.offsetBits, va := va, raw := e.raw } ∧
      t.cfg = s.cfg ∧ t.pt = s.pt ∧ t.freeFrames = s.freeFrames ∧ t.fatal = s.fatal ∧ t.host = s.host ∧
      (va / 2 ^ s.cfg.space.offsetBits ∉ s.resident.map Prod.fst → t.resident = s.resident) ∧
      (∀ older f newer, s.resident = older ++ (va / 2 ^ s.cfg.space.offsetBits, f) :: newer →
        va / 2 ^ s.cfg.space.offsetBits ∉ older.map Prod.fst →
        t.resident = older ++ newer ++ [(va / 2 ^ s.cfg.space.offsetBits, f)]) ∧
      (s.Good → va / 2 ^ s.cfg.space.offsetBits ∈ s.resident.map Prod.fst)

/-- R193: errors pass through. Where TRANSLATE of the same address answers ADDRESS_OUT_OF_RANGE or INVALID_CONFIGURATION,
RESOLVE answers the same status, the only field these answers define, and changes no state; in particular RESOLVE of an
address out of range answers ADDRESS_OUT_OF_RANGE, with no other defined field. -/
def Obligations.ResolveErrorsPassThrough : Prop :=
  ∀ (s : State) (va : Int), s.fatal = false →
    (∀ r, exec (.translate va) s = .next r → r.resp.status ∈ [Status.addressOutOfRange, .invalidConfiguration] →
      ∃ t, exec (.resolve va) s = .next t ∧ t.resp.status = r.resp.status ∧ OnlyAnswers s t) ∧
    (va < 0 ∨ va > 2 ^ s.cfg.space.virtualAddressBits - 1 →
      ∃ t, exec (.resolve va) s = .next t ∧
        t.resp = { s.freeResponse with status := .addressOutOfRange } ∧ OnlyAnswers s t)

/-- RESOLVE of a page that is not present, from a good state: the fault is handled and the retry answers. With a free frame
the page gets the front of the queue; with none it gets the frame of the oldest page, which loses its present bit (R190,
R194, R195, R219). -/
def Obligations.ResolveFaultLoadsThePageAndAnswers : Prop :=
  ∀ (s : State) (va : Nat), s.Good → va < 2 ^ s.cfg.space.virtualAddressBits →
    (∀ e, ptRead s.pt (va / 2 ^ s.cfg.space.offsetBits) = some e → e.present = false) →
    ∃ t f e, exec (.resolve va) s = .next t ∧
      (s.freeFrames = f :: t.freeFrames ∧ t.resident = s.resident ++ [(va / 2 ^ s.cfg.space.offsetBits, f)] ∨
        ∃ u rest, s.freeFrames = [] ∧ t.freeFrames = [] ∧ s.resident = (u, f) :: rest ∧
          t.resident = rest ++ [(va / 2 ^ s.cfg.space.offsetBits, f)] ∧
          ∃ e', ptRead t.pt u = some e' ∧ e'.present = false) ∧
      ptRead t.pt (va / 2 ^ s.cfg.space.offsetBits) = some e ∧ e.present = true ∧ e.frame = f ∧
      Gives t.resp
        { vpn := va / 2 ^ s.cfg.space.offsetBits, offset := va % 2 ^ s.cfg.space.offsetBits, frame := f,
          pa := f * 2 ^ s.cfg.space.offsetBits + va % 2 ^ s.cfg.space.offsetBits, va := va, raw := e.raw } ∧
      t.cfg = s.cfg ∧ t.fatal = false ∧ t.host = s.host

/-- When the handler goes fatal, RESOLVE panics: the flag is set, the answer is FATAL, and what the handler wrote before
stays. The four ways are those of R169: both structures empty, a victim without an entry, and a frame that does not fit,
taken from the queue or from a victim (R196, R169, the spec's decisions D15 and D28). -/
def Obligations.ResolvePanicsOnTheImpossiblePaths : Prop :=
  ∀ (s : State) (va : Nat), s.fatal = false → va < 2 ^ s.cfg.space.virtualAddressBits →
    (∀ e, ptRead s.pt (va / 2 ^ s.cfg.space.offsetBits) = some e → e.present = false) →
    va / 2 ^ s.cfg.space.offsetBits ∉ s.resident.map Prod.fst →
    (s.freeFrames = [] → s.resident = [] →
      ∃ t, exec (.resolve va) s = .next t ∧ t.resp.status = .fatal ∧ t.fatal = true ∧ t.pt = s.pt ∧
        t.resident = [] ∧ t.freeFrames = [] ∧ t.cfg = s.cfg ∧ t.host = s.host) ∧
    (∀ u f rest, s.freeFrames = [] → s.resident = (u, f) :: rest → ptRead s.pt u = none →
      ∃ t, exec (.resolve va) s = .next t ∧ t.resp.status = .fatal ∧ t.fatal = true ∧ t.pt = s.pt ∧
        t.resident = rest ∧ t.freeFrames = [] ∧ t.cfg = s.cfg ∧ t.host = s.host) ∧
    (∀ f rest, s.freeFrames = f :: rest → s.cfg.space.frameCount ≤ f →
      ∃ t, exec (.resolve va) s = .next t ∧ t.resp.status = .fatal ∧ t.fatal = true ∧ t.pt = s.pt ∧
        t.resident = s.resident ∧ t.freeFrames = rest ∧ t.cfg = s.cfg ∧ t.host = s.host) ∧
    (∀ u f rest e, s.freeFrames = [] → s.resident = (u, f) :: rest → ptRead s.pt u = some e →
      s.cfg.space.frameCount ≤ f →
      ∃ t, exec (.resolve va) s = .next t ∧ t.resp.status = .fatal ∧ t.fatal = true ∧
        ptRead t.pt u = some (evictedEntry s.cfg.space e) ∧ (∀ a, a ≠ u → ptRead t.pt a = ptRead s.pt a) ∧
        t.resident = rest ∧ t.freeFrames = [] ∧ t.cfg = s.cfg ∧ t.host = s.host)

/-- A page fault is never an answer of RESOLVE, and FATAL is its answer exactly when the flag has been set (R190, R196,
R214). -/
def Obligations.ResolveNeverAnswersPageFault : Prop :=
  ∀ (s t : State) (va : Int), s.fatal = false → exec (.resolve va) s = .next t →
    t.resp.status ∈ [Status.ok, .addressOutOfRange, .invalidConfiguration, .fatal] ∧
    (t.resp.status = .fatal ↔ t.fatal = true)

/-- R197 (the spec's inference from R170, R172 and R140): from any state satisfying INV-E, INV-L and INV-K (with the store's
form, R23, R28, and the widths, R9) RESOLVE answers OK, ADDRESS_OUT_OF_RANGE or INVALID_CONFIGURATION, never FATAL, the state
it leaves is good again, and the page of an OK answer is mapped there to the frame answered. -/
def Obligations.ResolveNeverPanicsFromAGoodState : Prop :=
  ∀ (s : State) (va : Int), s.Good →
    ∃ t, exec (.resolve va) s = .next t ∧ t.Good ∧
      t.resp.status ∈ [Status.ok, .addressOutOfRange, .invalidConfiguration] ∧
      (t.resp.status = .ok → t.Maps (va.toNat / 2 ^ s.cfg.space.offsetBits) t.resp.frame ∧
        t.resp.pa = (t.resp.frame <<< s.cfg.space.offsetBits ||| t.resp.offset))

/-- R200 (the spec's inference from R190 to R195): from a good state RESOLVE has the same effect on the block and the same
final result as the primitive commands the host would choose: TRANSLATE, and then TOUCH on OK, or HANDLE_FAULT and TRANSLATE
again on a page fault. -/
def Obligations.ResolveEqualsThePrimitiveCommands : Prop :=
  ∀ (s : State) (va : Int), s.Good →
    ∃ r t, exec (.translate va) s = .next r ∧ exec (.resolve va) s = .next t ∧
      (r.resp.status = .ok → ∃ u, exec (.touch r.resp.vpn) r = .next u ∧ SameBlock u t ∧
        Gives t.resp
          { vpn := r.resp.vpn, offset := r.resp.offset, frame := r.resp.frame, pa := r.resp.pa, va := r.resp.va,
            raw := r.resp.raw }) ∧
      (r.resp.status = .pageFault → ∃ u w, exec (.handleFault r.resp.vpn) r = .next u ∧
        exec (.translate va) u = .next w ∧ SameBlock w t ∧ w.resp.status = .ok ∧
        Gives t.resp
          { vpn := w.resp.vpn, offset := w.resp.offset, frame := w.resp.frame, pa := w.resp.pa, va := w.resp.va,
            raw := w.resp.raw }) ∧
      (r.resp.status ≠ .ok → r.resp.status ≠ .pageFault → SameBlock r t ∧ t.resp.status = r.resp.status)

/-- The sequencer phases of R37, one write of the state at a time from XLATE to IDLE, give exactly what the one-step RESOLVE
gives, in every state that has not panicked: the refusal too. -/
def Obligations.SequencerPhasesGiveTheOneStepResolve : Prop :=
  ∀ (s : State) (va : Int), s.fatal = false → ∃ n ≤ 8, runPhases n s (.xlate va) = some (exec (.resolve va) s)

/-! ### The panic flag and the signals -/

/-- R222: while `fatal` is 1 every command, whatever its opcode, answers FATAL and changes no state, and only a reset clears
the flag. -/
def Obligations.FatalIsStickyUntilReset : Prop :=
  (∀ (s : State) (c : Command) (rest : List HostMove), s.fatal = true → s.host = .command c :: rest →
    ∃ t, step s = .next t ∧ t.resp.status = .fatal ∧ SameBlock s t ∧ t.host = rest) ∧
  (∀ s t : State, s.fatal = true → step s = .next t → t.fatal = false → ∃ img rest, s.host = .reset img :: rest)

/-- While `fatal` is 1 each of the seven commands answers FATAL, with no other defined field, and changes nothing, the pure
codec commands too (R128, R148, R176, R201, R217 item 1). -/
def Obligations.EveryCommandAnswersFatalAfterAPanic : Prop :=
  ∀ (i : Instr) (s : State), s.fatal = true →
    ∃ t, exec i s = .next t ∧ t.resp = { s.freeResponse with status := .fatal } ∧ OnlyAnswers s t

/-- A command that answers with a code from 1 to 5 has changed no state at all (R218). -/
def Obligations.SignalsChangeNoState : Prop :=
  ∀ (i : Instr) (s t : State), exec i s = .next t → t.resp.status ≠ .ok → t.resp.status ≠ .fatal → OnlyAnswers s t

/-- The status numbers, and which command can answer which status (R79, R210): PAGE_FAULT is TRANSLATE's,
ADDRESS_OUT_OF_RANGE is never TOUCH's or the codec's, INVALID_CONFIGURATION is TRANSLATE's, RESOLVE's or SET_FRAME's,
INVALID_SIZE and ILLEGAL_COMMAND are no command's, and FATAL sets or finds the flag. -/
def Obligations.EachStatusHasItsNumberAndItsCommands : Prop :=
  [Status.ok, .pageFault, .addressOutOfRange, .invalidConfiguration, .invalidSize, .illegalCommand, .fatal].map Status.code
    = [0#3, 1#3, 2#3, 3#3, 4#3, 5#3, 6#3] ∧
  ∀ (i : Instr) (s t : State), exec i s = .next t →
    (t.resp.status = .pageFault → ∃ va, i = .translate va) ∧
    (t.resp.status = .addressOutOfRange → ∃ x, i = .translate x ∨ i = .resolve x ∨ i = .handleFault x) ∧
    (t.resp.status = .invalidConfiguration →
      (∃ va, i = .translate va ∨ i = .resolve va) ∨ ∃ raw f, i = .setFrame raw f) ∧
    t.resp.status ≠ .invalidSize ∧ t.resp.status ≠ .illegalCommand ∧ (t.resp.status = .fatal ↔ t.fatal = true)

/-! ### Invariants -/

/-- The machine right after reset is good (R245; the parameters of `State.reset` are the model's choice, assumption 2). -/
def Obligations.ResetStateIsGood : Prop := State.reset.Good

/-- R245 (the spec's inference from R241, R243, R244): after a reset with any configuration, any admitted initial table and
any admitted orders, INV-E, INV-L and INV-K hold and `fatal` is 0. -/
def Obligations.EveryAdmittedLaunchIsGood : Prop :=
  ∀ (p : Params) (img : ResetImage) (d : Nat) (moves : List HostMove), p.ok → launchAdmitted p img →
    (State.launch p img d moves).Good

/-- Every step of the block, a command or a reset, keeps the invariants, and from a good state never sets the flag (R172,
R197, R245, all three the spec's inferences). -/
def Obligations.EveryStepKeepsTheInvariants : Prop :=
  ∀ s t : State, s.Inv → step s = .next t → t.Inv ∧ (s.fatal = false → t.fatal = false)

/-- The configuration constants and the port widths never change, on any step, a reset too (R8, R21, R106, R246). -/
def Obligations.TheConfigurationNeverChanges : Prop :=
  ∀ s t : State, step s = .next t → t.cfg = s.cfg

/-- R175: no command frees a frame. `free_frames` only loses frames, at the front: after any command it is what it was, or
that without its first frame. A page leaves `resident` only by being evicted, when no frame is free, and its frame is reused
at once, by the page that is then the most recent one (or the block has panicked, R169). -/
def Obligations.NoCommandFreesAFrame : Prop :=
  ∀ (i : Instr) (s t : State), exec i s = .next t →
    (t.freeFrames = s.freeFrames ∨ ∃ f, s.freeFrames = f :: t.freeFrames) ∧
    (∀ u f, (u, f) ∈ s.resident → (u, f) ∉ t.resident →
      s.freeFrames = [] ∧ s.resident.head? = some (u, f) ∧
      (t.fatal = true ∨ ∃ v, v ≠ u ∧ t.resident.getLast? = some (v, f)))

/-- While a frame is free no page is evicted: no entry loses its present bit and no page leaves `resident` (R165, R174). -/
def Obligations.NoEvictionWhileAFrameIsFree : Prop :=
  ∀ (i : Instr) (s t : State), exec i s = .next t → s.freeFrames ≠ [] →
    (∀ v e, ptRead s.pt v = some e → e.present = true → ∃ e', ptRead t.pt v = some e' ∧ e'.present = true) ∧
    (∀ v ∈ s.resident.map Prod.fst, v ∈ t.resident.map Prod.fst)

/-- A page that leaves `resident` is the first one of it, the least recently used, and no frame was free (R166, R173, R175).
-/
def Obligations.OnlyTheOldestPageIsEvicted : Prop :=
  ∀ (i : Instr) (s t : State) (v : Nat), exec i s = .next t → v ∈ s.resident.map Prod.fst →
    v ∉ t.resident.map Prod.fst → s.freeFrames = [] ∧ s.resident.head?.map Prod.fst = some v

/-- With at least as many frames as pages no eviction ever happens: from a good state no command takes a page out of
`resident` or the present bit off an entry, and a page that is not resident finds a free frame (R108, the spec's inference
from R30 and R165). -/
def Obligations.EnoughFramesMeansNoEviction : Prop :=
  ∀ s : State, s.Inv → s.cfg.space.virtualPageCount ≤ s.cfg.space.frameCount →
    (∀ v, v < s.cfg.space.virtualPageCount → v ∉ s.resident.map Prod.fst → s.freeFrames ≠ []) ∧
    (∀ (i : Instr) (t : State), exec i s = .next t →
      (∀ x ∈ s.resident, x ∈ t.resident) ∧
      (∀ v e, ptRead s.pt v = some e → e.present = true → ∃ e', ptRead t.pt v = some e' ∧ e'.present = true))

/-- A mapping survives every command but the eviction of its page: from a good state a page mapped to a frame is still mapped
to it after the command, or it was the oldest page and no frame was free (R252, the spec's inference from R166). -/
def Obligations.PhysicalAddressesStayValidUntilEviction : Prop :=
  ∀ (i : Instr) (s t : State) (v f : Nat), s.Good → exec i s = .next t → s.Maps v f → f < s.cfg.space.frameCount →
    t.Maps v f ∨ (s.freeFrames = [] ∧ s.resident.head? = some (v, f))

/-- No two present entries with a frame in range name the same frame (from R30 INV-L1 with R31 INV-K). -/
def Obligations.NoTwoPagesShareAFrame : Prop :=
  ∀ (s : State) (v w f : Nat), s.Inv → s.Maps v f → s.Maps w f → f < s.cfg.space.frameCount → v = w

/-- Both paths converge on one recency order (R162): from a good state a command leaves `resident` as it was, or moves one
page to the end, or appends one page, or drops the first page and appends one. -/
def Obligations.OneRecencyOrder : Prop :=
  ∀ (i : Instr) (s t : State), s.Good → exec i s = .next t →
    t.resident = s.resident ∨
    (∃ older v f newer, s.resident = older ++ (v, f) :: newer ∧ t.resident = older ++ newer ++ [(v, f)]) ∨
    (∃ v f, s.freeFrames = f :: t.freeFrames ∧ t.resident = s.resident ++ [(v, f)]) ∨
    (∃ u v f rest, s.freeFrames = [] ∧ s.resident = (u, f) :: rest ∧ t.resident = rest ++ [(v, f)])

/-- Every field of every response, defined or free, fits the width R78 gives it, for a command that fits the port of a block
that meets the invariants; a field of width 0 so carries 0. The same holds of the answer to a reserved opcode, and of the
port after a reset, before the first response. -/
def Obligations.ResponsesFitTheirFields : Prop :=
  (∀ (i : Instr) (s t : State), s.Inv → i.wellFormed s.cfg.widths → exec i s = .next t → ResponseFits s.cfg t.resp) ∧
  (∀ s t : State, illegalCommand s = .next t → ResponseFits s.cfg t.resp) ∧
  (∀ (p : Params) (img : ResetImage) (d : Nat) (moves : List HostMove), ResponseFits p (State.launch p img d moves).resp)

/-- Evicting a page and loading it again keeps every bit of its raw word above the present bit (R166, R167): from a good
state, a HANDLE_FAULT that evicts page `u` followed by HANDLE_FAULT of `u`. -/
def Obligations.EvictThenReloadKeepsTheControlBits : Prop :=
  ∀ (s t w : State) (u v : Nat) (e : Entry), s.Good → ptRead s.pt u = some e → u ∈ s.resident.map Prod.fst →
    exec (.handleFault v) s = .next t → u ∉ t.resident.map Prod.fst → exec (.handleFault u) t = .next w →
    ∃ e', ptRead w.pt u = some e' ∧ e'.present = true ∧ e'.raw.testBit s.cfg.space.frameBits = true ∧
      ∀ i, s.cfg.space.frameBits < i → e'.raw.testBit i = e.raw.testBit i

/-! ### Configuration -/

/-- CREATE_COUNTS succeeds exactly when each of the three parameters is a positive power of two, and the configuration then
has those three values (R103, R104). On failure the signal names the first bad field in the order of R104 and its value (the
spec's choice, assumption 13). -/
def Obligations.CreateCountsAcceptsExactlyPowersOfTwo : Prop :=
  ∀ ps fc vc : Int,
    ((∃ c, createCounts ps fc vc = .ok c) ↔ (∃ k : Nat, ps = 2 ^ k) ∧ (∃ k : Nat, fc = 2 ^ k) ∧ (∃ k : Nat, vc = 2 ^ k)) ∧
    (∀ c, createCounts ps fc vc = .ok c →
      (c.pageSizeBytes : Int) = ps ∧ (c.frameCount : Int) = fc ∧ (c.virtualPageCount : Int) = vc ∧
      c.physicalAddressBits = c.frameBits + c.offsetBits ∧ c.virtualAddressBits = c.vpnBits + c.offsetBits) ∧
    (¬ (∃ k : Nat, ps = 2 ^ k) →
      createCounts ps fc vc = .signal (.invalidConfiguration .pageSizeBytes (some ps))) ∧
    ((∃ k : Nat, ps = 2 ^ k) → ¬ (∃ k : Nat, fc = 2 ^ k) →
      createCounts ps fc vc = .signal (.invalidConfiguration .frameCount (some fc))) ∧
    ((∃ k : Nat, ps = 2 ^ k) → (∃ k : Nat, fc = 2 ^ k) → ¬ (∃ k : Nat, vc = 2 ^ k) →
      createCounts ps fc vc = .signal (.invalidConfiguration .virtualPageCount (some vc)))

/-- CREATE_MEM checks the page size first, then that it divides the physical memory, then the virtual memory, and otherwise
is CREATE_COUNTS of the quotients (R105). That the signal of a size that does not divide carries that size as the offending
field and its bytes as the value is the model's reading of R210 (assumption 21). -/
def Obligations.CreateMemDividesByThePageSize : Prop :=
  ∀ ps pm vm : Int,
    (¬ (∃ k : Nat, ps = 2 ^ k) → createMem ps pm vm = .signal (.invalidConfiguration .pageSizeBytes (some ps))) ∧
    ((∃ k : Nat, ps = 2 ^ k) → ¬ ps ∣ pm → createMem ps pm vm = .signal (.invalidConfiguration .physicalMem (some pm))) ∧
    ((∃ k : Nat, ps = 2 ^ k) → ps ∣ pm → ¬ ps ∣ vm →
      createMem ps pm vm = .signal (.invalidConfiguration .virtualMem (some vm))) ∧
    (∀ fc vc : Int, (∃ k : Nat, ps = 2 ^ k) → pm = fc * ps → vm = vc * ps →
      createMem ps pm vm = createCounts ps fc vc)

/-- The table of R100: exactly one of the two pairs, both members of it and no member of the other; anything else is
InvalidConfiguration carrying one of the four parameters and the value supplied for it, none where it was not supplied
(R210); which of the four is a free value (assumption 24). A size string is converted first (R101): where PARSE_SIZE gives a
number of bytes, `create` is that of the byte count, and where it ends in a signal or a refusal (assumption 12), so does
`create`; of several strings the page size comes first, then the physical memory (assumption 14). -/
def Obligations.CreateTakesExactlyOnePair : Prop :=
  (∀ (ps : Int) (fc vc pm vm : Option Int),
    (∀ f v, fc = some f → vc = some v → pm = none → vm = none →
      create { pageSize := .bytes ps, frameCount := fc, virtualPageCount := vc, physicalMem := pm.map .bytes,
               virtualMem := vm.map .bytes } = createCounts ps f v) ∧
    (∀ p v, fc = none → vc = none → pm = some p → vm = some v →
      create { pageSize := .bytes ps, frameCount := fc, virtualPageCount := vc, physicalMem := pm.map .bytes,
               virtualMem := vm.map .bytes } = createMem ps p v) ∧
    (¬ (fc.isSome ∧ vc.isSome ∧ pm = none ∧ vm = none) → ¬ (fc = none ∧ vc = none ∧ pm.isSome ∧ vm.isSome) →
      ∃ named ∈ [(ConfigField.frameCount, fc), (.virtualPageCount, vc), (.physicalMem, pm), (.virtualMem, vm)],
        create { pageSize := .bytes ps, frameCount := fc, virtualPageCount := vc, physicalMem := pm.map .bytes,
                 virtualMem := vm.map .bytes } = .signal (.invalidConfiguration named.1 named.2))) ∧
  (∀ (a : CreateArgs) (text : List Char) (n : Nat), parseSize text = .ok n →
    (a.pageSize = .text text → create a = create { a with pageSize := .bytes n }) ∧
    (a.physicalMem = some (.text text) → create a = create { a with physicalMem := some (.bytes n) }) ∧
    (a.virtualMem = some (.text text) → create a = create { a with virtualMem := some (.bytes n) })) ∧
  (∀ (a : CreateArgs) (text : List Char),
    a.pageSize = .text text ∨
      (∃ n, a.pageSize = .bytes n) ∧
        (a.physicalMem = some (.text text) ∨
          (a.physicalMem = none ∨ ∃ n, a.physicalMem = some (.bytes n)) ∧ a.virtualMem = some (.text text)) →
    (∀ g, parseSize text = .signal g → create a = .signal g) ∧
    (parseSize text = .sizeTextRefused → create a = .sizeTextRefused))

/-- R102, the unit table and the shape. Digits with a unit in any letter case are the digits' decimal value times 1 for B,
2^10 for KiB, 2^20 for MiB, 2^30 for GiB. A text with no white space that has not the shape NUMBER UNIT is InvalidSize. A
text with white space is never accepted: it is refused where it is a size of a whole number of bytes but for the white space,
and otherwise, as `4 KB`, it is InvalidSize (assumption 12; the white space is the space, the tab, the line feed, the
carriage return). -/
def Obligations.SizeTextsParseByTheUnitTable : Prop :=
  (∀ ds u : List Char, ds ≠ [] → (∀ c ∈ ds, c.isDigit = true) →
    (u.map Char.toLower = ['b'] → parseSize (ds ++ u) = .ok (decimalValue ds)) ∧
    (u.map Char.toLower = ['k', 'i', 'b'] → parseSize (ds ++ u) = .ok (decimalValue ds * 2 ^ 10)) ∧
    (u.map Char.toLower = ['m', 'i', 'b'] → parseSize (ds ++ u) = .ok (decimalValue ds * 2 ^ 20)) ∧
    (u.map Char.toLower = ['g', 'i', 'b'] → parseSize (ds ++ u) = .ok (decimalValue ds * 2 ^ 30))) ∧
  (∀ text : List Char, (∀ c ∈ text, c.isWhitespace = false) → (∀ ds fs e, ¬ IsSizeText text ds fs e) →
    parseSize text = .signal .invalidSize) ∧
  (∀ text : List Char, (∃ c ∈ text, c.isWhitespace = true) →
    (IsSizeButForSpace text → parseSize text = .sizeTextRefused) ∧
    (¬ IsSizeButForSpace text → parseSize text = .signal .invalidSize))

/-- PARSE_SIZE of any text of the shape NUMBER UNIT, a fractional number too: the exact rational when it is a whole number of
bytes, and InvalidSize when it is not (R102; the latter the spec's decision D22). -/
def Obligations.FractionalSizeTextsParseExactly : Prop :=
  ∀ (text ds fs : List Char) (e : Nat), IsSizeText text ds fs e →
    (∀ n, n * 10 ^ fs.length = decimalValue (ds ++ fs) * 2 ^ e → parseSize text = .ok n) ∧
    ((∀ n, n * 10 ^ fs.length ≠ decimalValue (ds ++ fs) * 2 ^ e) → parseSize text = .signal .invalidSize)

/-- The boot sequence ends in a good block with the configuration `create` built (R247, R8), or in a signal, which is
`create`'s, or in a refusal: of a size text with white space (assumption 12), or of port widths or an image outside what the
loader owes (assumption 9). Each of these ends is exactly under its own condition. -/
def Obligations.BootGivesAGoodBlock : Prop :=
  ∀ (a : CreateArgs) (w : PortWidths) (img : ResetImage),
    (∀ s, boot a w img = .ok s → s.Good ∧ s.host = [] ∧ create a = .ok s.cfg.space ∧ s.cfg.widths = w ∧
      s.pt = img.ptInit ∧ s.resident.map Prod.fst = img.initOrder ∧ s.freeFrames = img.freeOrder) ∧
    (∀ c, create a = .ok c → Params.ok { space := c, widths := w } → launchAdmitted { space := c, widths := w } img →
      ∃ s, boot a w img = .ok s) ∧
    (∀ g, boot a w img = .signal g ↔ create a = .signal g) ∧
    (boot a w img = .sizeTextRefused ↔ create a = .sizeTextRefused) ∧
    (boot a w img = .launchRefused ↔ ∃ c, create a = .ok c ∧
      ¬ (Params.ok { space := c, widths := w } ∧ launchAdmitted { space := c, widths := w } img))
end

