-- ==== Sys2Proof/Laws/Bits.lean ====
section
/-! SUPPORT. The bit operators by their bits, and the codec's functions by their bits and by their bounds (spec
41_codec.md R121 to R129). -/

namespace Sys2Proof.Machine

theorem testBit_mask (n i : Nat) : (mask n).testBit i = decide (i < n) := by
  simp [mask, Nat.testBit_two_pow_sub_one]

theorem testBit_clearBits (x m i : Nat) : (clearBits x m).testBit i = (x.testBit i && !m.testBit i) := by
  cases hx : x.testBit i <;> cases hm : m.testBit i <;> simp [clearBits, hx, hm]

theorem testBit_oneBit (fb i : Nat) : (1 <<< fb).testBit i = decide (i = fb) := by
  rw [Nat.one_shiftLeft, Nat.testBit_two_pow]
  simp [eq_comm]

theorem testBit_bitValue_shift (b : Bool) (fb i : Nat) :
    (bitValue b <<< fb).testBit i = (b && decide (i = fb)) := by
  cases b
  · simp [bitValue]
  · simpa [bitValue] using testBit_oneBit fb i

theorem testBit_setPresent (fb raw i : Nat) (b : Bool) :
    (setPresent fb raw b).testBit i = if i = fb then b else raw.testBit i := by
  rw [setPresent, Nat.testBit_or, testBit_clearBits, testBit_oneBit, testBit_bitValue_shift]
  split <;> simp [*]

theorem testBit_of_lt_two_pow {f n i : Nat} (hf : f < 2 ^ n) (hi : n ≤ i) : f.testBit i = false :=
  Nat.testBit_lt_two_pow (lt_of_lt_of_le hf (Nat.pow_le_pow_right (by decide) hi))

theorem testBit_setFrame {fb f : Nat} (raw i : Nat) (hf : f < 2 ^ fb) :
    (setFrame fb raw f).testBit i = if i < fb then f.testBit i else raw.testBit i := by
  rw [setFrame, Nat.testBit_or, testBit_clearBits, testBit_mask]
  split
  · simp [*]
  · simp [*, testBit_of_lt_two_pow hf (Nat.le_of_not_lt ‹_›)]

theorem testBit_frameField (fb raw i : Nat) :
    (frameField fb raw).testBit i = (decide (i < fb) && raw.testBit i) := by
  rw [frameField, Nat.testBit_and, testBit_mask, Bool.and_comm]

theorem frameField_eq_mod (fb raw : Nat) : frameField fb raw = raw % 2 ^ fb := by
  rw [frameField, mask, Nat.and_two_pow_sub_one_eq_mod]

theorem lt_two_pow_of_testBit {x n : Nat} (h : ∀ i, n ≤ i → x.testBit i = false) : x < 2 ^ n :=
  Nat.lt_pow_two_of_testBit x h

theorem setPresent_lt {fb raw n : Nat} (b : Bool) (hraw : raw < 2 ^ n) (hfb : fb < n) :
    setPresent fb raw b < 2 ^ n := by
  refine lt_two_pow_of_testBit fun i hi => ?_
  rw [testBit_setPresent, if_neg (by omega), testBit_of_lt_two_pow hraw hi]

theorem setFrame_lt {fb raw f n : Nat} (hraw : raw < 2 ^ n) (hf : f < 2 ^ fb) (hfb : fb ≤ n) :
    setFrame fb raw f < 2 ^ n := by
  refine lt_two_pow_of_testBit fun i hi => ?_
  rw [testBit_setFrame _ _ hf, if_neg (by omega), testBit_of_lt_two_pow hraw hi]

theorem loadRaw_lt {fb base f n : Nat} (hraw : base < 2 ^ n) (hf : f < 2 ^ fb) (hfb : fb < n) :
    loadRaw fb base f < 2 ^ n :=
  setPresent_lt true (setFrame_lt hraw hf hfb.le) hfb

theorem testBit_loadRaw {fb base f : Nat} (i : Nat) (hf : f < 2 ^ fb) :
    (loadRaw fb base f).testBit i =
      if i = fb then true else if i < fb then f.testBit i else base.testBit i := by
  rw [loadRaw, testBit_setPresent, testBit_setFrame _ _ hf]

theorem presentBit_setPresent (fb raw : Nat) (b : Bool) : presentBit fb (setPresent fb raw b) = b := by
  simp [presentBit, bitAt, testBit_setPresent]

theorem frameField_setPresent (fb raw : Nat) (b : Bool) :
    frameField fb (setPresent fb raw b) = frameField fb raw := by
  refine Nat.eq_of_testBit_eq fun i => ?_
  simp only [testBit_frameField, testBit_setPresent]
  by_cases h : i < fb
  · simp [h, Nat.ne_of_lt h]
  · simp [h]

theorem presentBit_loadRaw (fb base f : Nat) : presentBit fb (loadRaw fb base f) = true :=
  presentBit_setPresent _ _ _

theorem frameField_loadRaw {fb f : Nat} (base : Nat) (hf : f < 2 ^ fb) : frameField fb (loadRaw fb base f) = f := by
  refine Nat.eq_of_testBit_eq fun i => ?_
  rw [loadRaw, frameField_setPresent, testBit_frameField, testBit_setFrame _ _ hf]
  by_cases h : i < fb
  · simp [h]
  · simp [h, testBit_of_lt_two_pow hf (Nat.le_of_not_lt h)]

theorem frameOverflows_eq_false {fb f : Nat} : frameOverflows fb f = false ↔ f < 2 ^ fb := by
  simp [frameOverflows]

theorem bitField_lt (x lo len : Nat) : bitField x lo len < 2 ^ len :=
  Nat.mod_lt _ (Nat.two_pow_pos len)

theorem signExtend_signedPattern {n : Nat} {v : Int} (hlo : -(2 ^ n : Int) ≤ 2 * v) (hhi : 2 * v < 2 ^ n) :
    signExtend n (signedPattern n v) = v := by
  have hpos : (0 : Int) < 2 ^ n := by positivity
  have hcast : ((2 ^ n : Nat) : Int) = 2 ^ n := by push_cast; rfl
  rw [signExtend, signedPattern]
  have hnn : 0 ≤ v % (2 ^ n : Int) := Int.emod_nonneg _ hpos.ne'
  have hto : ((v % (2 ^ n : Int)).toNat : Int) = v % 2 ^ n := Int.toNat_of_nonneg hnn
  by_cases hv : 0 ≤ v
  · have hmod : v % (2 ^ n : Int) = v := Int.emod_eq_of_lt hv (by omega)
    rw [hmod] at hto ⊢
    rw [if_pos (by zify; rw [hto]; omega), hto]
  · have hmod : v % (2 ^ n : Int) = v + 2 ^ n := by
      rw [← Int.add_emod_right, Int.emod_eq_of_lt (by omega) (by omega)]
    rw [hmod] at hto ⊢
    rw [if_neg (by zify; rw [hto]; omega), hto]
    omega

theorem signedPattern_lt (n : Nat) (v : Int) : signedPattern n v < 2 ^ n := by
  have hpos : (0 : Int) < 2 ^ n := by positivity
  have hlt := Int.emod_lt_of_pos v hpos
  have hnn := Int.emod_nonneg v hpos.ne'
  rw [signedPattern]
  zify
  rw [Int.toNat_of_nonneg hnn]
  exact hlt

end Sys2Proof.Machine
end

