-- ==== Sys2Proof/Laws/Configure.lean ====
section
/-! SUPPORT. The size-string parser against the words the claims use: its digits, its white space, its unit table and its
decimal value are those of core Lean and Mathlib, and one lemma each way says which texts it takes apart. -/

namespace Sys2Proof.Machine

theorem isDigit_eq (c : Char) : isDigit c = c.isDigit := by
  simp only [isDigit, Char.isDigit, Char.toNat, ge_iff_le, UInt32.le_iff_toNat_le]
  rfl

theorem isSpace_eq (c : Char) : isSpace c = c.isWhitespace := by
  have key : ∀ d : Char, (c.toNat == d.toNat) = decide (c = d) := fun d => by
    rw [Bool.eq_iff_iff, beq_iff_eq, decide_eq_true_iff]
    exact ⟨fun h => Char.ext (UInt32.toNat_inj.1 h), fun h => h ▸ rfl⟩
  have h1 := key ' '
  have h2 := key '\t'
  have h3 := key '\n'
  have h4 := key '\r'
  simp only [isSpace, Char.isWhitespace]
  rw [show (32 : Nat) = ' '.toNat from rfl, show (9 : Nat) = '\t'.toNat from rfl, show (10 : Nat) = '\n'.toNat from rfl,
    show (13 : Nat) = '\r'.toNat from rfl, h1, h2, h3, h4]
  by_cases a : c = ' ' <;> by_cases b : c = '\t' <;> by_cases d : c = '\n' <;> by_cases e : c = '\r' <;> simp [a, b, d, e]

theorem caseless_eq (c : Char) : caseless c = c.toLower.toNat := by
  have upper : ('A'.val ≤ c.val ∧ c.val ≤ 'Z'.val) ↔ 65 ≤ c.toNat ∧ c.toNat ≤ 90 := by
    rw [UInt32.le_iff_toNat_le, UInt32.le_iff_toNat_le]
    rfl
  unfold caseless Char.toLower
  by_cases h : 65 ≤ c.toNat ∧ c.toNat ≤ 90
  · rw [if_pos h, dif_pos (upper.2 h)]
    show c.val.toNat + 32 = (c.val + ('a'.val - 'A'.val)).toNat
    have : ('a'.val - 'A'.val).toNat = 32 := by decide
    rw [UInt32.toNat_add, this]
    have : c.val.toNat ≤ 90 := h.2
    omega
  · rw [if_neg h, dif_neg fun h' => h (upper.1 h')]

theorem decimalValue_eq (ds : List Char) : digitsValue ds = decimalValue ds := by
  induction ds using List.reverseRecOn with
  | nil => rfl
  | append_singleton ds c ih =>
    unfold digitsValue decimalValue at *
    rw [List.foldl_append, ih, List.reverse_append]
    simp [Nat.ofDigits_cons]
    omega

/-- The unit table of R102. -/
theorem unitExponent_eq_some {u : List Char} {e : Nat} :
    unitExponent u = some e ↔ ∃ x ∈ sizeUnits, u.map Char.toLower = x.1.toList ∧ e = x.2 := by
  have hm : ∀ l : List Char, (u.map caseless = l.map Char.toNat) ↔ u.map Char.toLower = l := fun l => by
    have : u.map caseless = (u.map Char.toLower).map Char.toNat := by simp [caseless_eq, Function.comp_def]
    rw [this]
    exact (List.map_injective_iff.2 fun a b h => Char.ext (UInt32.toNat_inj.1 h)).eq_iff
  have h1 : (u.map caseless = [98]) ↔ _ := hm "b".toList
  have h2 : (u.map caseless = [107, 105, 98]) ↔ _ := hm "kib".toList
  have h3 : (u.map caseless = [109, 105, 98]) ↔ _ := hm "mib".toList
  have h4 : (u.map caseless = [103, 105, 98]) ↔ _ := hm "gib".toList
  simp only [unitExponent, h1, h2, h3, h4, sizeUnits, List.mem_cons, List.not_mem_nil, or_false, exists_eq_or_imp,
    exists_eq_left]
  split_ifs with a b c d
  · refine ⟨fun h => .inl ⟨a, (Option.some.inj h).symm⟩, ?_⟩
    rintro (⟨-, rfl⟩ | ⟨h, -⟩ | ⟨h, -⟩ | ⟨h, -⟩)
    · rfl
    all_goals exact absurd (a.symm.trans h) (by decide)
  · refine ⟨fun h => .inr (.inl ⟨b, (Option.some.inj h).symm⟩), ?_⟩
    rintro (⟨h, -⟩ | ⟨-, rfl⟩ | ⟨h, -⟩ | ⟨h, -⟩)
    · exact absurd h a
    · rfl
    all_goals exact absurd (b.symm.trans h) (by decide)
  · refine ⟨fun h => .inr (.inr (.inl ⟨c, (Option.some.inj h).symm⟩)), ?_⟩
    rintro (⟨h, -⟩ | ⟨h, -⟩ | ⟨-, rfl⟩ | ⟨h, -⟩)
    · exact absurd h a
    · exact absurd h b
    · rfl
    · exact absurd (c.symm.trans h) (by decide)
  · refine ⟨fun h => .inr (.inr (.inr ⟨d, (Option.some.inj h).symm⟩)), ?_⟩
    rintro (⟨h, -⟩ | ⟨h, -⟩ | ⟨h, -⟩ | ⟨-, rfl⟩)
    · exact absurd h a
    · exact absurd h b
    · exact absurd h c
    · rfl
  · refine ⟨fun h => (nomatch h), ?_⟩
    rintro (⟨h, -⟩ | ⟨h, -⟩ | ⟨h, -⟩ | ⟨h, -⟩)
    · exact absurd h a
    · exact absurd h b
    · exact absurd h c
    · exact absurd h d

/-- No character of a unit is a digit, white space or the point, and a unit is not empty. -/
theorem unit_chars {u : List Char} {e : Nat} (h : unitExponent u = some e) :
    u ≠ [] ∧ ∀ c ∈ u, c.isDigit = false ∧ c.isWhitespace = false ∧ c ≠ '.' := by
  obtain ⟨x, hx, hu, -⟩ := unitExponent_eq_some.1 h
  have letters : ∀ c ∈ u, c.toLower ∈ ['b', 'k', 'i', 'm', 'g'] := fun c hc => by
    have hc : c.toLower ∈ x.1.toList := hu ▸ List.mem_map_of_mem hc
    simp only [sizeUnits, List.mem_cons, List.not_mem_nil, or_false] at hx
    rcases hx with rfl | rfl | rfl | rfl <;> simp at hc ⊢ <;> tauto
  refine ⟨?_, fun c hc => ?_⟩
  · rintro rfl
    simp only [sizeUnits, List.mem_cons, List.not_mem_nil, or_false] at hx
    rcases hx with rfl | rfl | rfl | rfl <;> simp at hu
  · have hlow := letters c hc
    have big : 65 ≤ c.toNat := by
      have := caseless_eq c
      unfold caseless at this
      simp only [List.mem_cons, List.not_mem_nil, or_false] at hlow
      split at this
      · omega
      · rcases hlow with h | h | h | h | h <;> rw [h] at this <;> simp at this <;> omega
    rw [← isDigit_eq, ← isSpace_eq]
    refine ⟨by simp [isDigit]; omega, by simp [isSpace]; omega, ?_⟩
    rintro rfl
    exact absurd big (by decide)

/-! ### Taking a text apart -/

theorem takeWhile_append_of {p : Char → Bool} {l m : List Char} (h : ∀ c ∈ l, p c = true) (hm : ∀ c ∈ m.head?, p c = false) :
    (l ++ m).takeWhile p = l ∧ (l ++ m).dropWhile p = m := by
  induction l with
  | nil => cases m with
    | nil => simp
    | cons a m => simp [hm a (by simp)]
  | cons a l ih =>
    have := ih fun c hc => h c (List.mem_cons_of_mem _ hc)
    simp [h a, this]

theorem mem_takeWhile {p : Char → Bool} {l : List Char} {c : Char} (h : c ∈ l.takeWhile p) : p c = true := by
  induction l with
  | nil => simp at h
  | cons a l ih =>
    rw [List.takeWhile_cons] at h
    split at h
    · rcases List.mem_cons.1 h with rfl | h
      · assumption
      · exact ih h
    · simp at h

/-- The text of a number: its digits, and the point with its digits where there is a fraction. -/
abbrev numberText (ds fs : List Char) : List Char := ds ++ if fs = [] then [] else '.' :: fs

/-- A number with a unit, with white space around and between them or without, is taken apart into its digits and the unit's
exponent; `spaced` says whether there was white space. -/
theorem sizeShape_of_text {before between behind ds fs u : List Char} {e : Nat}
    (hw : ∀ c ∈ before ++ between ++ behind, c.isWhitespace = true) (hne : ds ≠ []) (hd : ∀ c ∈ ds ++ fs, c.isDigit = true)
    (hu : unitExponent u = some e) :
    sizeShape (before ++ numberText ds fs ++ between ++ u ++ behind) =
      some { whole := ds, fraction := fs, exponent := e, spaced := decide (before ++ between ++ behind ≠ []) } := by
  obtain ⟨hune, huc⟩ := unit_chars hu
  have space : ∀ c : Char, c.isWhitespace = true → isSpace c = true := fun c h => (isSpace_eq c).trans h
  have notDigit : ∀ c : Char, isSpace c = true → isDigit c = false ∧ c ≠ '.' := fun c h => by
    refine ⟨?_, by rintro rfl; exact absurd h (by decide)⟩
    simp [isSpace, isDigit] at h ⊢; omega
  have digit : ∀ c ∈ ds ++ fs, isDigit c = true ∧ isSpace c = false := fun c h => by
    have h := (isDigit_eq c).trans (hd c h)
    refine ⟨h, ?_⟩
    cases hs : isSpace c with
    | false => rfl
    | true => rw [(notDigit c hs).1] at h; cases h
  have unit : ∀ c ∈ u, isDigit c = false ∧ isSpace c = false ∧ c ≠ '.' := fun c h => by
    have := huc c h
    rwa [← isDigit_eq, ← isSpace_eq] at this
  -- the tail after the number
  obtain ⟨x, u', rfl⟩ := List.exists_cons_of_ne_nil hune
  have headTail : ∀ c ∈ (between ++ (x :: u') ++ behind).head?, isDigit c = false ∧ c ≠ '.' := fun c h => by
    cases between with
    | nil => obtain rfl : x = c := by simpa using h
             exact ⟨(unit x (by simp)).1, (unit x (by simp)).2.2⟩
    | cons b between =>
      obtain rfl : b = c := by simpa using h
      exact notDigit b (space b (hw b (by simp)))
  have body : (before ++ numberText ds fs ++ between ++ (x :: u') ++ behind).dropWhile isSpace =
      ds ++ ((if fs = [] then [] else '.' :: fs) ++ (between ++ (x :: u') ++ behind)) := by
    have := (takeWhile_append_of (p := isSpace) (l := before) (m := ds ++ ((if fs = [] then [] else '.' :: fs) ++
      (between ++ (x :: u') ++ behind))) (fun c h => space c (hw c (by simp [h]))) ?_).2
    · simpa [numberText] using this
    · obtain ⟨d, ds', rfl⟩ := List.exists_cons_of_ne_nil hne
      intro c h
      obtain rfl : d = c := by simpa using h
      exact (digit d (by simp)).2
  have cut := takeWhile_append_of (p := isDigit) (l := ds) (m := (if fs = [] then [] else '.' :: fs) ++
    (between ++ (x :: u') ++ behind)) (fun c h => (digit c (by simp [h])).1) (fun c h => by
      by_cases hf : fs = []
      · rw [if_pos hf, List.nil_append] at h; exact (headTail c h).1
      · rw [if_neg hf] at h
        obtain rfl : '.' = c := by simpa using h
        decide)
  have fraction : fractionDigits ((if fs = [] then [] else '.' :: fs) ++ (between ++ (x :: u') ++ behind)) =
      some (fs, between ++ (x :: u') ++ behind) := by
    by_cases hf : fs = []
    · subst hf
      rw [if_pos rfl, List.nil_append]
      cases h : between ++ (x :: u') ++ behind with
      | nil => simp at h
      | cons c l => rw [h] at headTail; simp [fractionDigits, (headTail c (by simp)).2]
    · have := takeWhile_append_of (p := isDigit) (l := fs) (m := between ++ (x :: u') ++ behind)
        (fun c h => (digit c (by simp [h])).1) fun c h => (headTail c h).1
      rw [if_neg hf]
      simp only [List.cons_append, fractionDigits, if_true, this, if_neg hf]
  have strip : (((between ++ (x :: u') ++ behind).dropWhile isSpace).reverse.dropWhile isSpace).reverse = x :: u' := by
    have h1 := (takeWhile_append_of (p := isSpace) (l := between) (m := (x :: u') ++ behind)
      (fun c h => space c (hw c (by simp [h]))) fun c h => by
        obtain rfl : x = c := by simpa using h
        exact (unit x (by simp)).2.1).2
    have h2 := (takeWhile_append_of (p := isSpace) (l := behind.reverse) (m := (x :: u').reverse)
      (fun c h => space c (hw c (by simp at h; simp [h]))) fun c h => (unit c (by
        have := List.mem_of_mem_head? h
        rwa [List.mem_reverse] at this)).2.1).2
    rw [List.append_assoc, h1, List.reverse_append, h2, List.reverse_reverse]
  have spaced : (before ++ numberText ds fs ++ between ++ (x :: u') ++ behind).any isSpace =
      decide (before ++ between ++ behind ≠ []) := by
    rw [Bool.eq_iff_iff, decide_eq_true_iff, List.any_eq_true]
    constructor
    · rintro ⟨c, hc, hs⟩ hnil
      have hb : before = [] ∧ between = [] ∧ behind = [] := by simpa [and_assoc] using hnil
      obtain ⟨rfl, rfl, rfl⟩ := hb
      simp only [List.nil_append, List.append_nil, numberText, List.mem_append] at hc
      rcases hc with (hc | hc) | hc
      · rw [(digit c (by simp [hc])).2] at hs; cases hs
      · split at hc
        · simp at hc
        · rcases List.mem_cons.1 hc with rfl | hc
          · exact absurd hs (by decide)
          · rw [(digit c (by simp [hc])).2] at hs; cases hs
      · rw [(unit c hc).2.1] at hs; cases hs
    · intro h
      obtain ⟨c, l, hcl⟩ := List.exists_cons_of_ne_nil h
      have hc : c ∈ before ++ between ++ behind := hcl ▸ List.mem_cons_self
      refine ⟨c, ?_, space c (hw c hc)⟩
      rw [List.mem_append, List.mem_append] at hc
      rcases hc with (hc | hc) | hc <;> simp [hc]
  simp only [sizeShape, body, cut.1, cut.2, if_neg hne, fraction, strip, hu, spaced]

/-- What a text is that is taken apart: white space, the number, white space, a unit, white space. -/
theorem text_of_sizeShape {s : List Char} {z : SizeShape} (h : sizeShape s = some z) :
    z.whole ≠ [] ∧ (∀ c ∈ z.whole ++ z.fraction, c.isDigit = true) ∧
    ∃ before between u behind : List Char, (∀ c ∈ before ++ between ++ behind, c.isWhitespace = true) ∧
      unitExponent u = some z.exponent ∧ s = before ++ numberText z.whole z.fraction ++ between ++ u ++ behind := by
  have digits : ∀ l : List Char, ∀ c ∈ l.takeWhile isDigit, c.isDigit = true := fun l c hc =>
    (isDigit_eq c).symm.trans (mem_takeWhile hc)
  have spaces : ∀ l : List Char, ∀ c ∈ l.takeWhile isSpace, c.isWhitespace = true := fun l c hc =>
    (isSpace_eq c).symm.trans (mem_takeWhile hc)
  simp only [sizeShape] at h
  split at h
  · cases h
  rename_i hwhole
  split at h
  · cases h
  rename_i fraction rest hf
  split at h
  · cases h
  rename_i e he
  cases h
  -- what follows the whole part
  have tail : (∀ c ∈ fraction, c.isDigit = true) ∧
      (s.dropWhile isSpace).dropWhile isDigit = (if fraction = [] then [] else '.' :: fraction) ++ rest := by
    generalize (s.dropWhile isSpace).dropWhile isDigit = d at hf
    cases d with
    | nil => simp [fractionDigits] at hf; simp [hf]
    | cons c l =>
      simp only [fractionDigits] at hf
      split at hf
      · rename_i hc
        split at hf
        · cases hf
        · rename_i hne
          simp only [Option.some.injEq, Prod.mk.injEq] at hf
          obtain ⟨rfl, rfl⟩ := hf
          exact ⟨digits l, by rw [if_neg hne, List.cons_append, List.takeWhile_append_dropWhile, hc]⟩
      · simp only [Option.some.injEq, Prod.mk.injEq] at hf
        obtain ⟨rfl, rfl⟩ := hf
        simp
  -- what follows the number, read from its end
  have behind : (rest.dropWhile isSpace) = ((rest.dropWhile isSpace).reverse.dropWhile isSpace).reverse ++
      ((rest.dropWhile isSpace).reverse.takeWhile isSpace).reverse := by
    rw [← List.reverse_append, List.takeWhile_append_dropWhile, List.reverse_reverse]
  refine ⟨hwhole, fun c hc => ?_, s.takeWhile isSpace, rest.takeWhile isSpace, _,
    ((rest.dropWhile isSpace).reverse.takeWhile isSpace).reverse, fun c hc => ?_, he, ?_⟩
  · rcases List.mem_append.1 hc with hc | hc
    · exact digits _ c hc
    · exact tail.1 c hc
  · rcases List.mem_append.1 hc with hc | hc
    · rcases List.mem_append.1 hc with hc | hc <;> exact spaces _ c hc
    · exact spaces _ c (List.mem_reverse.1 hc)
  · rw [List.append_assoc, ← behind, List.append_assoc, List.takeWhile_append_dropWhile, List.append_assoc, numberText,
      List.append_assoc, ← tail.2, List.takeWhile_append_dropWhile, List.takeWhile_append_dropWhile]

/-- A text of the shape of R102 is taken apart into its parts. -/
theorem sizeShape_of_isSizeText {s ds fs : List Char} {e : Nat} (h : IsSizeText s ds fs e) :
    sizeShape s = some { whole := ds, fraction := fs, exponent := e, spaced := false } := by
  obtain ⟨hne, hd, u, hu, rfl⟩ := h
  have := sizeShape_of_text (before := []) (between := []) (behind := []) (by simp) hne hd (unitExponent_eq_some.2 hu)
  rw [show ds ++ (if fs = [] then u else '.' :: fs ++ u) = numberText ds fs ++ u by unfold numberText; split <;> simp]
  simpa using this

/-- A text without white space that is taken apart at all has the shape of R102. -/
theorem isSizeText_of_sizeShape {s : List Char} {z : SizeShape} (hs : ∀ c ∈ s, c.isWhitespace = false)
    (h : sizeShape s = some z) : IsSizeText s z.whole z.fraction z.exponent := by
  obtain ⟨hne, hd, before, between, u, behind, hw, hu, rfl⟩ := text_of_sizeShape h
  have hnil : before ++ between ++ behind = [] := List.eq_nil_iff_forall_not_mem.2 fun c hc => by
    have := hw c hc
    rw [hs c (by simp only [List.mem_append] at hc ⊢; tauto)] at this
    cases this
  obtain ⟨rfl, rfl, rfl⟩ : before = [] ∧ between = [] ∧ behind = [] := by simpa using hnil
  refine ⟨hne, hd, u, unitExponent_eq_some.1 hu, ?_⟩
  simp only [numberText, List.nil_append, List.append_nil]
  split <;> simp

/-- A text with white space in it is marked so. -/
theorem spaced_of_sizeShape {s : List Char} {z : SizeShape} (h : sizeShape s = some z) : z.spaced = s.any isSpace := by
  simp only [sizeShape] at h
  split at h
  · cases h
  · split at h
    · cases h
    · split at h
      · cases h
      · cases h; rfl

/-- The bytes of a shape are the exact quotient, when it is a whole number. -/
theorem bytes_eq_some {z : SizeShape} {n : Nat} :
    z.bytes = some n ↔
      n * 10 ^ z.fraction.length = decimalValue (z.whole ++ z.fraction) * 2 ^ z.exponent := by
  have hpos : 0 < 10 ^ z.fraction.length := by positivity
  simp only [SizeShape.bytes, decimalValue_eq]
  split
  · rename_i h
    rw [Option.some.injEq]
    constructor
    · rintro rfl
      exact Nat.div_mul_cancel (Nat.dvd_of_mod_eq_zero h)
    · intro h'
      rw [← h', Nat.mul_div_cancel _ hpos]
  · rename_i h
    refine ⟨fun h => (nomatch h), fun h' => absurd ?_ h⟩
    rw [← h', Nat.mul_mod_left]

/-- The parser finds a whole number of bytes exactly in the texts that are a size but for white space. -/
theorem isSizeButForSpace_iff {s : List Char} :
    IsSizeButForSpace s ↔ ∃ z n, sizeShape s = some z ∧ z.bytes = some n := by
  constructor
  · rintro ⟨before, _, between, unit, behind, ds, fs, e, n, rfl, hw, ⟨hne, hd, u, hu, hs⟩, rfl, hn⟩
    obtain rfl : unit = u := by
      refine List.append_cancel_left (as := ds ++ if fs = [] then [] else '.' :: fs) (hs.trans ?_)
      split <;> simp
    exact ⟨_, n, sizeShape_of_text hw hne hd (unitExponent_eq_some.2 hu), bytes_eq_some.2 hn⟩
  · rintro ⟨z, n, h, hn⟩
    obtain ⟨hne, hd, before, between, u, behind, hw, hu, hs⟩ := text_of_sizeShape h
    refine ⟨before, _, between, u, behind, z.whole, z.fraction, z.exponent, n, hs, hw,
      ⟨hne, hd, u, unitExponent_eq_some.1 hu, ?_⟩, rfl, bytes_eq_some.1 hn⟩
    split <;> simp_all

/-! ### The signal of a wrong choice of pairs -/

/-- Everything `wrongPairs` can be: it carries one of the four parameters and what was supplied for it. -/
theorem wrongPairs_names (ps : Int) (fc vc pm vm : Option Int) :
    ∃ named ∈ [(ConfigField.frameCount, fc), (.virtualPageCount, vc), (.physicalMem, pm), (.virtualMem, vm)],
      wrongPairs ps fc vc pm vm = .invalidConfiguration named.1 named.2 := by
  unfold wrongPairs
  split
  · exact ⟨(.frameCount, fc), by simp, rfl⟩
  · exact ⟨(.virtualPageCount, vc), by simp, rfl⟩
  · exact ⟨(.physicalMem, pm), by simp, rfl⟩
  · exact ⟨(.virtualMem, vm), by simp, rfl⟩

end Sys2Proof.Machine
end

