-- ==== Sys2Proof/Laws/Sequences.lean ====
section
/-! SUPPORT. The sequence primitives: what a lookup gives after each of them, and what each of them keeps (spec
00_scope.md R13, R14). -/

namespace Sys2Proof.Machine

variable {α : Type}

@[simp] theorem findKey_nil (k : Nat) : findKey ([] : List (Nat × α)) k = none := rfl

theorem findKey_cons (v : Nat) (a : α) (l : List (Nat × α)) (k : Nat) :
    findKey ((v, a) :: l) k = if v = k then some a else findKey l k := rfl

theorem eraseKey_cons (v : Nat) (a : α) (l : List (Nat × α)) (k : Nat) :
    eraseKey ((v, a) :: l) k = if v = k then l else (v, a) :: eraseKey l k := rfl

theorem writeKey_cons (v : Nat) (b : α) (l : List (Nat × α)) (k : Nat) (a : α) :
    writeKey ((v, b) :: l) k a =
      if k < v then (k, a) :: (v, b) :: l else if k = v then (k, a) :: l else (v, b) :: writeKey l k a := rfl

theorem findKey_mem {l : List (Nat × α)} {k : Nat} {a : α} (h : findKey l k = some a) : (k, a) ∈ l := by
  induction l with
  | nil => cases h
  | cons x l ih =>
    obtain ⟨v, b⟩ := x
    rw [findKey_cons] at h
    split at h
    · cases h; subst_vars; exact List.mem_cons_self
    · exact List.mem_cons_of_mem _ (ih h)

theorem findKey_eq_none {l : List (Nat × α)} {k : Nat} : findKey l k = none ↔ k ∉ l.map Prod.fst := by
  induction l with
  | nil => simp
  | cons x l ih =>
    obtain ⟨v, b⟩ := x
    rw [findKey_cons]
    split
    · simp [*]
    · simp [ih, Ne.symm ‹_›]

theorem findKey_isSome {l : List (Nat × α)} {k : Nat} : (findKey l k).isSome = true ↔ k ∈ l.map Prod.fst := by
  rw [← not_iff_not, Bool.not_eq_true, Option.isSome_eq_false_iff, Option.isNone_iff_eq_none, findKey_eq_none]

theorem findKey_of_mem {l : List (Nat × α)} (hl : (l.map Prod.fst).Nodup) {k : Nat} {a : α} (h : (k, a) ∈ l) :
    findKey l k = some a := by
  induction l with
  | nil => cases h
  | cons x l ih =>
    obtain ⟨v, b⟩ := x
    rw [List.map_cons, List.nodup_cons] at hl
    rw [findKey_cons]
    rcases List.mem_cons.1 h with h | h
    · cases h; simp
    · rw [if_neg, ih hl.2 h]
      rintro rfl
      exact hl.1 (List.mem_map.2 ⟨_, h, rfl⟩)

theorem findKey_append (l m : List (Nat × α)) (k : Nat) :
    findKey (l ++ m) k = (findKey l k).or (findKey m k) := by
  induction l with
  | nil => simp
  | cons x l ih =>
    obtain ⟨v, b⟩ := x
    rw [List.cons_append, findKey_cons, findKey_cons]
    split <;> simp [ih]

/-- A read after a write to the same slot gives what was written. -/
theorem findKey_writeKey_self (l : List (Nat × α)) (k : Nat) (a : α) : findKey (writeKey l k a) k = some a := by
  induction l with
  | nil => simp [writeKey, findKey]
  | cons x l ih =>
    obtain ⟨v, b⟩ := x
    rw [writeKey_cons]
    split
    · simp [findKey]
    · split
      · simp [findKey]
      · rw [findKey_cons, if_neg (Ne.symm ‹_›), ih]

/-- A write leaves every other slot alone. -/
theorem findKey_writeKey_of_ne {j k : Nat} (h : j ≠ k) (l : List (Nat × α)) (a : α) :
    findKey (writeKey l k a) j = findKey l j := by
  induction l with
  | nil => simp [writeKey, findKey, Ne.symm h]
  | cons x l ih =>
    obtain ⟨v, b⟩ := x
    rw [writeKey_cons]
    split
    · rw [findKey_cons, if_neg (Ne.symm h)]
    · split
      · subst_vars; rw [findKey_cons, findKey_cons, if_neg (Ne.symm h), if_neg (Ne.symm h)]
      · rw [findKey_cons, findKey_cons, ih]

theorem mem_writeKey {l : List (Nat × α)} {k : Nat} {a : α} {x : Nat × α} (h : x ∈ writeKey l k a) :
    x = (k, a) ∨ x ∈ l := by
  induction l with
  | nil => simpa [writeKey] using h
  | cons y l ih =>
    obtain ⟨v, b⟩ := y
    rw [writeKey_cons] at h
    split at h
    · simpa using h
    · split at h
      · rcases List.mem_cons.1 h with h | h
        · exact .inl h
        · exact .inr (List.mem_cons_of_mem _ h)
      · rcases List.mem_cons.1 h with h | h
        · exact .inr (h ▸ List.mem_cons_self)
        · exact (ih h).imp_right (List.mem_cons_of_mem _)

/-- A write keeps the canonical form. -/
theorem keysRising_writeKey {l : List (Nat × α)} (hl : keysRising l) (k : Nat) (a : α) :
    keysRising (writeKey l k a) := by
  induction l with
  | nil => simp [writeKey]
  | cons x l ih =>
    obtain ⟨v, b⟩ := x
    obtain ⟨hv, hl⟩ := List.pairwise_cons.1 hl
    rw [writeKey_cons]
    split
    · refine List.pairwise_cons.2 ⟨fun y hy => ?_, List.pairwise_cons.2 ⟨hv, hl⟩⟩
      rcases List.mem_cons.1 hy with rfl | hy
      · assumption
      · exact lt_trans ‹k < v› (hv y hy)
    · split
      · subst_vars; exact List.pairwise_cons.2 ⟨hv, hl⟩
      · refine List.pairwise_cons.2 ⟨fun y hy => ?_, ih hl⟩
        rcases mem_writeKey hy with rfl | hy
        · have : ¬k < v := ‹_›; have : ¬k = v := ‹_›; show v < k; omega
        · exact hv y hy

theorem nodup_keys_of_keysRising {l : List (Nat × α)} (hl : keysRising l) : (l.map Prod.fst).Nodup := by
  rw [List.nodup_iff_pairwise_ne, List.pairwise_map]
  exact hl.imp fun h => Nat.ne_of_lt h

theorem eraseKey_perm {l : List (Nat × α)} {k : Nat} {a : α} (h : findKey l k = some a) :
    ((k, a) :: eraseKey l k).Perm l := by
  induction l with
  | nil => cases h
  | cons x l ih =>
    obtain ⟨v, b⟩ := x
    rw [findKey_cons] at h
    rw [eraseKey_cons]
    split at h
    · cases h; subst_vars; simp
    · rw [if_neg ‹_›]
      exact (List.Perm.swap _ _ _).trans ((ih h).cons _)

/-- `moveToBack` only reorders. -/
theorem moveToBack_perm (l : List (Nat × α)) (k : Nat) : (moveToBack l k).Perm l := by
  unfold moveToBack
  split
  · exact (List.perm_append_comm.trans (by simpa using eraseKey_perm ‹_›))
  · exact .refl _

theorem findKey_perm {l m : List (Nat × α)} (h : l.Perm m) (hl : (l.map Prod.fst).Nodup) (k : Nat) :
    findKey l k = findKey m k := by
  have hm : (m.map Prod.fst).Nodup := (h.map Prod.fst).nodup_iff.1 hl
  cases hk : findKey m k with
  | none => rw [findKey_eq_none] at hk ⊢; rwa [(h.map Prod.fst).mem_iff]
  | some a => exact findKey_of_mem hl (h.mem_iff.2 (findKey_mem hk))

end Sys2Proof.Machine
end

