-- ==== Sys2Proof/Laws/State.lean ====
section
/-! SUPPORT. One lemma per field per named update of the state, true by `rfl`, so that no later proof unfolds a record
update. -/

namespace Sys2Proof.Machine

variable (s : State)
@[simp] theorem State.withPt_cfg (pt : PageTable) : (s.withPt pt).cfg = s.cfg := rfl
@[simp] theorem State.withPt_pt (pt : PageTable) : (s.withPt pt).pt = pt := rfl
@[simp] theorem State.withPt_resident (pt : PageTable) : (s.withPt pt).resident = s.resident := rfl
@[simp] theorem State.withPt_freeFrames (pt : PageTable) : (s.withPt pt).freeFrames = s.freeFrames := rfl
@[simp] theorem State.withPt_fatal (pt : PageTable) : (s.withPt pt).fatal = s.fatal := rfl
@[simp] theorem State.withPt_resp (pt : PageTable) : (s.withPt pt).resp = s.resp := rfl
@[simp] theorem State.withPt_draws (pt : PageTable) : (s.withPt pt).draws = s.draws := rfl
@[simp] theorem State.withPt_host (pt : PageTable) : (s.withPt pt).host = s.host := rfl

@[simp] theorem State.withResident_cfg (l : List (Nat × Nat)) : (s.withResident l).cfg = s.cfg := rfl
@[simp] theorem State.withResident_pt (l : List (Nat × Nat)) : (s.withResident l).pt = s.pt := rfl
@[simp] theorem State.withResident_resident (l : List (Nat × Nat)) : (s.withResident l).resident = l := rfl
@[simp] theorem State.withResident_freeFrames (l : List (Nat × Nat)) : (s.withResident l).freeFrames = s.freeFrames := rfl
@[simp] theorem State.withResident_fatal (l : List (Nat × Nat)) : (s.withResident l).fatal = s.fatal := rfl
@[simp] theorem State.withResident_resp (l : List (Nat × Nat)) : (s.withResident l).resp = s.resp := rfl
@[simp] theorem State.withResident_draws (l : List (Nat × Nat)) : (s.withResident l).draws = s.draws := rfl
@[simp] theorem State.withResident_host (l : List (Nat × Nat)) : (s.withResident l).host = s.host := rfl

@[simp] theorem State.withFreeFrames_cfg (l : List Nat) : (s.withFreeFrames l).cfg = s.cfg := rfl
@[simp] theorem State.withFreeFrames_pt (l : List Nat) : (s.withFreeFrames l).pt = s.pt := rfl
@[simp] theorem State.withFreeFrames_resident (l : List Nat) : (s.withFreeFrames l).resident = s.resident := rfl
@[simp] theorem State.withFreeFrames_freeFrames (l : List Nat) : (s.withFreeFrames l).freeFrames = l := rfl
@[simp] theorem State.withFreeFrames_fatal (l : List Nat) : (s.withFreeFrames l).fatal = s.fatal := rfl
@[simp] theorem State.withFreeFrames_resp (l : List Nat) : (s.withFreeFrames l).resp = s.resp := rfl
@[simp] theorem State.withFreeFrames_draws (l : List Nat) : (s.withFreeFrames l).draws = s.draws := rfl
@[simp] theorem State.withFreeFrames_host (l : List Nat) : (s.withFreeFrames l).host = s.host := rfl

@[simp] theorem State.setFatal_cfg : (s.setFatal).cfg = s.cfg := rfl
@[simp] theorem State.setFatal_pt : (s.setFatal).pt = s.pt := rfl
@[simp] theorem State.setFatal_resident : (s.setFatal).resident = s.resident := rfl
@[simp] theorem State.setFatal_freeFrames : (s.setFatal).freeFrames = s.freeFrames := rfl
@[simp] theorem State.setFatal_fatal : (s.setFatal).fatal = true := rfl
@[simp] theorem State.setFatal_resp : (s.setFatal).resp = s.resp := rfl
@[simp] theorem State.setFatal_draws : (s.setFatal).draws = s.draws := rfl
@[simp] theorem State.setFatal_host : (s.setFatal).host = s.host := rfl

@[simp] theorem State.withHost_cfg (m : List HostMove) : (s.withHost m).cfg = s.cfg := rfl
@[simp] theorem State.withHost_pt (m : List HostMove) : (s.withHost m).pt = s.pt := rfl
@[simp] theorem State.withHost_resident (m : List HostMove) : (s.withHost m).resident = s.resident := rfl
@[simp] theorem State.withHost_freeFrames (m : List HostMove) : (s.withHost m).freeFrames = s.freeFrames := rfl
@[simp] theorem State.withHost_fatal (m : List HostMove) : (s.withHost m).fatal = s.fatal := rfl
@[simp] theorem State.withHost_resp (m : List HostMove) : (s.withHost m).resp = s.resp := rfl
@[simp] theorem State.withHost_draws (m : List HostMove) : (s.withHost m).draws = s.draws := rfl
@[simp] theorem State.withHost_host (m : List HostMove) : (s.withHost m).host = m := rfl

@[simp] theorem State.respond_cfg (d : Response → Response) : (s.respond d).cfg = s.cfg := rfl
@[simp] theorem State.respond_pt (d : Response → Response) : (s.respond d).pt = s.pt := rfl
@[simp] theorem State.respond_resident (d : Response → Response) : (s.respond d).resident = s.resident := rfl
@[simp] theorem State.respond_freeFrames (d : Response → Response) : (s.respond d).freeFrames = s.freeFrames := rfl
@[simp] theorem State.respond_fatal (d : Response → Response) : (s.respond d).fatal = s.fatal := rfl
@[simp] theorem State.respond_resp (d : Response → Response) : (s.respond d).resp = d s.freeResponse := rfl
@[simp] theorem State.respond_draws (d : Response → Response) : (s.respond d).draws = s.draws + 1 := rfl
@[simp] theorem State.respond_host (d : Response → Response) : (s.respond d).host = s.host := rfl

@[simp] theorem State.respondOk_cfg (d : Response → Response) : (s.respondOk d).cfg = s.cfg := rfl
@[simp] theorem State.respondOk_pt (d : Response → Response) : (s.respondOk d).pt = s.pt := rfl
@[simp] theorem State.respondOk_resident (d : Response → Response) : (s.respondOk d).resident = s.resident := rfl
@[simp] theorem State.respondOk_freeFrames (d : Response → Response) : (s.respondOk d).freeFrames = s.freeFrames := rfl
@[simp] theorem State.respondOk_fatal (d : Response → Response) : (s.respondOk d).fatal = s.fatal := rfl
@[simp] theorem State.respondOk_resp (d : Response → Response) : (s.respondOk d).resp = { d s.freeResponse with status := .ok } := rfl
@[simp] theorem State.respondOk_draws (d : Response → Response) : (s.respondOk d).draws = s.draws + 1 := rfl
@[simp] theorem State.respondOk_host (d : Response → Response) : (s.respondOk d).host = s.host := rfl

@[simp] theorem State.signal_cfg (st : Status) : (s.signal st).cfg = s.cfg := rfl
@[simp] theorem State.signal_pt (st : Status) : (s.signal st).pt = s.pt := rfl
@[simp] theorem State.signal_resident (st : Status) : (s.signal st).resident = s.resident := rfl
@[simp] theorem State.signal_freeFrames (st : Status) : (s.signal st).freeFrames = s.freeFrames := rfl
@[simp] theorem State.signal_fatal (st : Status) : (s.signal st).fatal = s.fatal := rfl
@[simp] theorem State.signal_resp (st : Status) : (s.signal st).resp = { s.freeResponse with status := st } := rfl
@[simp] theorem State.signal_draws (st : Status) : (s.signal st).draws = s.draws + 1 := rfl
@[simp] theorem State.signal_host (st : Status) : (s.signal st).host = s.host := rfl

@[simp] theorem State.panic_cfg : (s.panic).cfg = s.cfg := rfl
@[simp] theorem State.panic_pt : (s.panic).pt = s.pt := rfl
@[simp] theorem State.panic_resident : (s.panic).resident = s.resident := rfl
@[simp] theorem State.panic_freeFrames : (s.panic).freeFrames = s.freeFrames := rfl
@[simp] theorem State.panic_fatal : (s.panic).fatal = true := rfl
@[simp] theorem State.panic_resp : (s.panic).resp = { s.freeResponse with status := .fatal } := rfl
@[simp] theorem State.panic_draws : (s.panic).draws = s.draws + 1 := rfl
@[simp] theorem State.panic_host : (s.panic).host = s.host := rfl

@[simp] theorem State.touch_cfg (v : Nat) : (s.touch v).cfg = s.cfg := rfl
@[simp] theorem State.touch_pt (v : Nat) : (s.touch v).pt = s.pt := rfl
@[simp] theorem State.touch_resident (v : Nat) : (s.touch v).resident = moveToBack s.resident v := rfl
@[simp] theorem State.touch_freeFrames (v : Nat) : (s.touch v).freeFrames = s.freeFrames := rfl
@[simp] theorem State.touch_fatal (v : Nat) : (s.touch v).fatal = s.fatal := rfl
@[simp] theorem State.touch_resp (v : Nat) : (s.touch v).resp = s.resp := rfl
@[simp] theorem State.touch_draws (v : Nat) : (s.touch v).draws = s.draws := rfl
@[simp] theorem State.touch_host (v : Nat) : (s.touch v).host = s.host := rfl

@[simp] theorem State.loadPage_cfg (v : Nat) (b : Nat) (f : Nat) : (s.loadPage v b f).cfg = s.cfg := rfl
@[simp] theorem State.loadPage_pt (v : Nat) (b : Nat) (f : Nat) : (s.loadPage v b f).pt = ptWrite s.pt v (loadedEntry s.cfg.space b f) := rfl
@[simp] theorem State.loadPage_resident (v : Nat) (b : Nat) (f : Nat) : (s.loadPage v b f).resident = s.resident := rfl
@[simp] theorem State.loadPage_freeFrames (v : Nat) (b : Nat) (f : Nat) : (s.loadPage v b f).freeFrames = s.freeFrames := rfl
@[simp] theorem State.loadPage_fatal (v : Nat) (b : Nat) (f : Nat) : (s.loadPage v b f).fatal = s.fatal := rfl
@[simp] theorem State.loadPage_resp (v : Nat) (b : Nat) (f : Nat) : (s.loadPage v b f).resp = s.resp := rfl
@[simp] theorem State.loadPage_draws (v : Nat) (b : Nat) (f : Nat) : (s.loadPage v b f).draws = s.draws := rfl
@[simp] theorem State.loadPage_host (v : Nat) (b : Nat) (f : Nat) : (s.loadPage v b f).host = s.host := rfl

@[simp] theorem State.appendResident_cfg (v : Nat) (f : Nat) : (s.appendResident v f).cfg = s.cfg := rfl
@[simp] theorem State.appendResident_pt (v : Nat) (f : Nat) : (s.appendResident v f).pt = s.pt := rfl
@[simp] theorem State.appendResident_resident (v : Nat) (f : Nat) : (s.appendResident v f).resident = s.resident ++ [(v, f)] := rfl
@[simp] theorem State.appendResident_freeFrames (v : Nat) (f : Nat) : (s.appendResident v f).freeFrames = s.freeFrames := rfl
@[simp] theorem State.appendResident_fatal (v : Nat) (f : Nat) : (s.appendResident v f).fatal = s.fatal := rfl
@[simp] theorem State.appendResident_resp (v : Nat) (f : Nat) : (s.appendResident v f).resp = s.resp := rfl
@[simp] theorem State.appendResident_draws (v : Nat) (f : Nat) : (s.appendResident v f).draws = s.draws := rfl
@[simp] theorem State.appendResident_host (v : Nat) (f : Nat) : (s.appendResident v f).host = s.host := rfl

end Sys2Proof.Machine
end

