-- ==== Sys2Proof/Laws/Ops.lean ====
section
/-! SUPPORT. One lemma per shared operation, saying once everything it can do: the translation, frame acquisition, the fault
handler, the recency order, and the memory's canonical form under each of them. -/

namespace Sys2Proof.Machine

/-! ### The entry check of every command -/

theorem unlessFatal_of_running {s : State} (h : s.fatal = false) (k : Host.Outcome State Fault Refusal) :
    unlessFatal s k = k := by
  simp [unlessFatal, h]

theorem unlessFatal_of_panicked {s : State} (h : s.fatal = true) (k : Host.Outcome State Fault Refusal) :
    unlessFatal s k = .next (s.signal .fatal) := by
  simp [unlessFatal, h]

/-! ### Answering -/

/-- A trimmed response fits the field widths (30_encoding.md R78). -/
theorem responseFits_trim (p : Params) (r : Response) : ResponseFits p (trimResponse p r) := by
  refine ⟨?_, ?_, ?_, ?_, ?_, ?_, ?_⟩ <;> exact Nat.mod_lt _ (Nat.two_pow_pos _)

/-- A response that already fits is left as it is: trimming only bounds the free values. -/
theorem trim_of_responseFits {p : Params} {r : Response} (h : ResponseFits p r) : trimResponse p r = r := by
  obtain ⟨h1, h2, h3, h4, h5, h6, h7⟩ := h
  simp only [trimResponse, Nat.mod_eq_of_lt, *]

theorem responseFits_free (s : State) : ResponseFits s.cfg s.freeResponse := responseFits_trim s.cfg _

/-- A signal defines the status alone, so its response fits. -/
theorem responseFits_signal (s : State) (st : Status) : ResponseFits s.cfg (s.signal st).resp := responseFits_free s

/-! ### The store -/

theorem ptRead_ptWrite_self (pt : PageTable) (v : Nat) (e : Entry) : ptRead (ptWrite pt v e) v = some e :=
  findKey_writeKey_self pt v e

theorem ptRead_ptWrite_of_ne {u v : Nat} (h : u ≠ v) (pt : PageTable) (e : Entry) :
    ptRead (ptWrite pt v e) u = ptRead pt u :=
  findKey_writeKey_of_ne h pt e

/-- A write of the store keeps its canonical form. -/
theorem wf_ptWrite {pt : PageTable} (h : Memory.wf pt) (v : Nat) (e : Entry) : Memory.wf (ptWrite pt v e) :=
  keysRising_writeKey h v e

/-- The store of the machine right after reset is in canonical form. -/
theorem wf_reset : Memory.wf State.reset.pt := List.Pairwise.nil

theorem mem_ptWrite {pt : PageTable} {v : Nat} {e : Entry} {x : Nat × Entry} (h : x ∈ ptWrite pt v e) :
    x = (v, e) ∨ x ∈ pt :=
  mem_writeKey h

theorem mem_of_ptRead {pt : PageTable} {v : Nat} {e : Entry} (h : ptRead pt v = some e) : (v, e) ∈ pt :=
  findKey_mem h

/-! ### Translation -/

theorem addressInRange_iff {c : AddressSpaceConfig} {va : Int} :
    addressInRange c va = true ↔ 0 ≤ va ∧ va < 2 ^ c.virtualAddressBits := by
  simp only [addressInRange, decide_eq_true_eq]
  omega

theorem vpnOf_lt {c : AddressSpaceConfig} {va : Int} (h : addressInRange c va = true) :
    vpnOf c va.toNat < c.virtualPageCount := by
  obtain ⟨h0, h1⟩ := addressInRange_iff.1 h
  have hn : va.toNat < 2 ^ c.virtualAddressBits := by zify; rwa [Int.toNat_of_nonneg h0]
  rw [vpnOf, Nat.shiftRight_eq_div_pow, AddressSpaceConfig.virtualPageCount]
  exact Nat.div_lt_of_lt_mul (by rwa [← Nat.pow_add, Nat.add_comm])

theorem offsetOf_eq_mod (c : AddressSpaceConfig) (va : Nat) : offsetOf c va = va % 2 ^ c.offsetBits := by
  rw [offsetOf, mask, Nat.and_two_pow_sub_one_eq_mod]

theorem offsetOf_lt (c : AddressSpaceConfig) (va : Nat) : offsetOf c va < 2 ^ c.offsetBits := by
  rw [offsetOf_eq_mod]
  exact Nat.mod_lt _ (Nat.two_pow_pos _)

/-- Because the offset is below `2^offset_bits` the OR is the same as an addition (30_encoding.md R72). -/
theorem physicalAddress_eq_add {c : AddressSpaceConfig} {f o : Nat} (h : o < 2 ^ c.offsetBits) :
    physicalAddress c f o = f * 2 ^ c.offsetBits + o := by
  rw [physicalAddress, Nat.shiftLeft_eq, Nat.mul_comm, ← Nat.two_pow_add_eq_or_of_lt h]

/-- Everything a translation can answer (R140). -/
theorem translate_cases (c : AddressSpaceConfig) (pt : PageTable) (va : Int) :
    (addressInRange c va = false ∧ translateVa c pt va = .addressOutOfRange) ∨
    (addressInRange c va = true ∧ ptRead pt (vpnOf c va.toNat) = none ∧
      translateVa c pt va = .pageFault (vpnOf c va.toNat) none) ∨
    (∃ e, addressInRange c va = true ∧ ptRead pt (vpnOf c va.toNat) = some e ∧ e.present = false ∧
      translateVa c pt va = .pageFault (vpnOf c va.toNat) (some e)) ∨
    (∃ e, addressInRange c va = true ∧ ptRead pt (vpnOf c va.toNat) = some e ∧ e.present = true ∧
      c.frameCount ≤ e.frame ∧ translateVa c pt va = .invalidConfiguration) ∨
    (∃ e, addressInRange c va = true ∧ ptRead pt (vpnOf c va.toNat) = some e ∧ e.present = true ∧
      e.frame < c.frameCount ∧
      translateVa c pt va = .ok
        { vpn := vpnOf c va.toNat, offset := offsetOf c va.toNat, frame := e.frame,
          pa := physicalAddress c e.frame (offsetOf c va.toNat), va := va.toNat, raw := e.raw }) := by
  cases hr : addressInRange c va with
  | false => exact .inl ⟨rfl, by simp [translateVa, hr]⟩
  | true =>
    refine .inr ?_
    cases he : ptRead pt (vpnOf c va.toNat) with
    | none => exact .inl ⟨rfl, rfl, by simp [translateVa, translateInRange, hr, he]⟩
    | some e =>
      refine .inr ?_
      cases hp : e.present with
      | false => exact .inl ⟨e, rfl, rfl, hp, by simp [translateVa, translateInRange, hr, he, hp]⟩
      | true =>
        refine .inr ?_
        rcases Nat.lt_or_ge e.frame c.frameCount with hf | hf
        · exact .inr ⟨e, rfl, rfl, hp, hf, by simp [translateVa, translateInRange, hr, he, hp, Nat.not_le.2 hf]⟩
        · exact .inl ⟨e, rfl, rfl, hp, hf, by simp [translateVa, translateInRange, hr, he, hp, hf]⟩

/-! ### The recency order -/

theorem touch_perm (s : State) (v : Nat) : (s.touch v).resident.Perm s.resident :=
  moveToBack_perm s.resident v

/-- Reordering `resident` keeps the invariants (43_lru.md R172, first point). -/
theorem inv_of_resident_perm {s : State} (h : s.Inv) {l : List (Nat × Nat)} (hl : l.Perm s.resident) :
    (s.withResident l).Inv := by
  obtain ⟨hok, hst, hE, hW, ⟨hnd, hlt⟩, h1, h2, hK⟩ := h
  have hnd' : (l.map Prod.fst).Nodup := (hl.map _).nodup_iff.2 hnd
  refine ⟨hok, hst, hE, hW, ⟨hnd', fun x hx => hlt x (hl.mem_iff.1 hx)⟩,
    ((hl.map _).append_right _).trans h1, ?_, fun v hv => ?_⟩
  · show l.length + s.freeFrames.length = _
    rw [hl.length_eq]; exact h2
  · show findKey l v = _
    rw [findKey_perm hl hnd']; exact hK v hv

/-! ### Frame acquisition -/

/-- Everything frame acquisition can answer (R163 step 1, R169). -/
theorem acquireFrame_cases (s : State) :
    (∃ f rest, s.freeFrames = f :: rest ∧ acquireFrame s = .frame f (s.withFreeFrames rest)) ∨
    (∃ u f rest e, s.freeFrames = [] ∧ s.resident = (u, f) :: rest ∧ ptRead s.pt u = some e ∧
      acquireFrame s =
        .frame f ((s.withResident rest).withPt (ptWrite s.pt u (evictedEntry s.cfg.space e)))) ∨
    (s.freeFrames = [] ∧ s.resident = [] ∧ acquireFrame s = .panicked s) ∨
    (∃ u f rest, s.freeFrames = [] ∧ s.resident = (u, f) :: rest ∧ ptRead s.pt u = none ∧
      acquireFrame s = .panicked (s.withResident rest)) := by
  cases hf : s.freeFrames with
  | cons f rest => exact .inl ⟨f, rest, rfl, by simp [acquireFrame, hf]⟩
  | nil =>
    refine .inr ?_
    cases hr : s.resident with
    | nil => exact .inr (.inl ⟨rfl, rfl, by simp [acquireFrame, evictOldest, hf, hr]⟩)
    | cons x rest =>
      obtain ⟨u, f⟩ := x
      cases he : ptRead s.pt u with
      | some e => exact .inl ⟨u, f, rest, e, rfl, rfl, he, by simp [acquireFrame, evictOldest, hf, hr, he]⟩
      | none => exact .inr (.inr ⟨u, f, rest, rfl, rfl, he, by simp [acquireFrame, evictOldest, hf, hr, he]⟩)

/-- What holds between frame acquisition and the recency update, when one frame is in neither structure (R30). -/
structure Pending (s t : State) (v f : Nat) : Prop where
  cfg_eq    : t.cfg = s.cfg
  fatal_eq  : t.fatal = s.fatal
  host_eq   : t.host = s.host
  stale_eq  : ptRead t.pt v = ptRead s.pt v
  store     : t.StoreOk
  invE      : t.InvE
  widths    : t.WidthsOk
  residentOk : t.ResidentOk
  frames    : (f :: (t.resident.map Prod.snd ++ t.freeFrames)).Perm (List.range s.cfg.space.frameCount)
  invK      : t.InvK
  absent    : findKey t.resident v = none

theorem entryAgrees_evictedEntry (c : AddressSpaceConfig) (e : Entry) : entryAgrees c (evictedEntry c e) := by
  refine ⟨presentBit_setPresent _ _ _, fun h => ?_⟩
  cases h

theorem entryAgrees_loadedEntry {c : AddressSpaceConfig} {f : Nat} (base : Nat) (hf : f < c.frameCount) :
    entryAgrees c (loadedEntry c base f) :=
  ⟨presentBit_loadRaw _ _ _, fun _ _ => frameField_loadRaw base hf⟩

/-- A page that is resident has an entry that holds its frame (INV-K with R28). -/
theorem entry_of_resident {s : State} (hlt : ∀ x ∈ s.resident, x.1 < s.cfg.space.virtualPageCount) (hK : s.InvK)
    {v f : Nat} (h : findKey s.resident v = some f) :
    ∃ e, ptRead s.pt v = some e ∧ holdsFrame s.cfg.space e = true ∧ e.frame = f := by
  have hk := hK v (hlt _ (findKey_mem h))
  rw [h] at hk
  simpa [Option.filter_eq_some_iff, and_assoc] using hk.symm

/-- Under the invariants frame acquisition succeeds and leaves one frame pending (R169, R170, R172). -/
theorem acquireFrame_pending {s : State} (h : s.Inv) {v : Nat} (hv : findKey s.resident v = none) :
    ∃ f t, acquireFrame s = .frame f t ∧ Pending s t v f := by
  obtain ⟨hok, ⟨hwf, hkeys⟩, hE, hW, ⟨hnd, hlt⟩, h1, h2, hK⟩ := h
  rcases acquireFrame_cases s with ⟨f, rest, hfr, ha⟩ | ⟨u, f, rest, e, hfr, hr, he, ha⟩ | ⟨hfr, hr, -⟩ |
      ⟨u, f, rest, -, hr, he, -⟩
  · refine ⟨f, _, ha, ⟨rfl, rfl, rfl, rfl, ⟨hwf, hkeys⟩, hE, hW, ⟨hnd, hlt⟩, ?_, hK, hv⟩⟩
    refine List.Perm.trans ?_ h1
    rw [hfr]
    exact (List.perm_middle (l₁ := s.resident.map Prod.snd)).symm
  · have hmem : (u, f) ∈ s.resident := hr ▸ List.mem_cons_self
    have huv : v ≠ u := by
      rintro rfl
      rw [hr, findKey_cons, if_pos rfl] at hv
      cases hv
    rw [hr, List.map_cons, List.nodup_cons] at hnd
    have hfind : ∀ w, w ≠ u → findKey rest w = findKey s.resident w := fun w hw => by
      rw [hr, findKey_cons, if_neg (Ne.symm hw)]
    refine ⟨f, _, ha, ⟨rfl, rfl, rfl, ptRead_ptWrite_of_ne huv _ _, ⟨wf_ptWrite hwf _ _, fun x hx => ?_⟩,
      fun x hx => ?_, fun x hx => ?_, ⟨hnd.2, fun x hx => hlt x (hr ▸ List.mem_cons_of_mem _ hx)⟩, ?_,
      fun w hw => ?_, ?_⟩⟩
    · rcases mem_ptWrite hx with rfl | hx
      · exact hlt _ hmem
      · exact hkeys x hx
    · rcases mem_ptWrite hx with rfl | hx
      · exact entryAgrees_evictedEntry _ _
      · exact hE x hx
    · rcases mem_ptWrite hx with rfl | hx
      · have := hW _ (mem_of_ptRead he)
        exact ⟨this.1, setPresent_lt _ this.2 (by have := hok.2.1; show _ < s.cfg.widths.rw; omega)⟩
      · exact hW x hx
    · rw [State.InvL1, hr, hfr] at h1
      simpa [hfr] using h1
    · show findKey rest w = ((ptRead (ptWrite s.pt u (evictedEntry s.cfg.space e)) w).filter _).map _
      by_cases hwu : w = u
      · subst hwu
        rw [ptRead_ptWrite_self, findKey_eq_none.2 hnd.1]
        simp [holdsFrame, evictedEntry]
      · rw [ptRead_ptWrite_of_ne hwu, hfind w hwu]
        exact hK w hw
    · show findKey rest v = none
      rw [hfind v huv, hv]
  · exfalso
    rw [State.InvL2, hr, hfr] at h2
    have := Nat.two_pow_pos s.cfg.space.frameBits
    simp only [List.length_nil, AddressSpaceConfig.frameCount] at h2
    omega
  · exfalso
    have hfu : findKey s.resident u = some f := by rw [hr, findKey_cons, if_pos rfl]
    obtain ⟨e, he', -⟩ := entry_of_resident hlt hK hfu
    rw [he] at he'
    cases he'

/-! ### The fault handler -/

/-- The state a completed load leaves (R163 steps 2 and 3). -/
theorem handleFault_eq {s t : State} {v f : Nat} (hv : findKey s.resident v = none)
    (ha : acquireFrame s = .frame f t) (hf : f < t.cfg.space.frameCount) :
    handleFault s v =
      .loaded f ((t.loadPage v (loadBase (ptRead s.pt v)) f).appendResident v f) := by
  rw [handleFault, hv, ha]
  simp only [Option.isSome_none, Bool.false_eq_true, if_false, finishLoad]
  rw [if_neg]
  rw [Bool.not_eq_true, frameOverflows_eq_false]
  exact hf

theorem Pending.frame_lt {s t : State} {v f : Nat} (h : Pending s t v f) : f < t.cfg.space.frameCount := by
  have := h.frames.mem_iff.1 List.mem_cons_self
  rw [h.cfg_eq]
  exact List.mem_range.1 this

/-- Loading the pending frame gives the invariants back (R172, second and third point). -/
theorem Pending.inv_load {s t : State} {v f : Nat} (h : Pending s t v f) (hok : s.cfg.ok)
    (hv : v < s.cfg.space.virtualPageCount) (hstale : ∀ e, ptRead s.pt v = some e → entryFits s.cfg.widths e) :
    ((t.loadPage v (loadBase (ptRead s.pt v)) f).appendResident v f).Inv := by
  have hf := h.frame_lt
  have hf' : f < 2 ^ t.cfg.space.frameBits := hf
  have hok' : t.cfg.ok := h.cfg_eq ▸ hok
  have hv' : v < t.cfg.space.virtualPageCount := h.cfg_eq ▸ hv
  have hperm : (t.resident.map Prod.snd ++ [f] ++ t.freeFrames).Perm (List.range t.cfg.space.frameCount) := by
    rw [h.cfg_eq, List.append_assoc]
    exact List.perm_middle.trans h.frames
  refine ⟨hok', ⟨wf_ptWrite h.store.1 _ _, fun x hx => ?_⟩, fun x hx => ?_, fun x hx => ?_, ⟨?_, fun x hx => ?_⟩,
    ?_, ?_, fun w hw => ?_⟩
  · rcases mem_ptWrite hx with rfl | hx
    · exact hv'
    · exact h.store.2 x hx
  · rcases mem_ptWrite hx with rfl | hx
    · exact entryAgrees_loadedEntry _ hf
    · exact h.invE x hx
  · rcases mem_ptWrite hx with rfl | hx
    · have hrw : t.cfg.space.frameBits + 5 ≤ t.cfg.widths.rw := hok'.2.1
      have hfw : t.cfg.space.frameBits + 1 ≤ t.cfg.widths.fw := hok'.2.2
      have hfb : t.cfg.space.frameBits < t.cfg.widths.rw := by omega
      refine ⟨lt_of_lt_of_le hf' (Nat.pow_le_pow_right (by decide) (Nat.le_of_succ_le hfw)), loadRaw_lt ?_ hf' hfb⟩
      cases hs : ptRead s.pt v with
      | none => exact Nat.two_pow_pos _
      | some e =>
        show e.raw < 2 ^ t.cfg.widths.rw
        rw [h.cfg_eq]
        exact (hstale e hs).2
    · exact h.widths x hx
  · show ((t.resident ++ [(v, f)]).map Prod.fst).Nodup
    have := findKey_eq_none.1 h.absent
    rw [List.map_append, List.nodup_append]
    refine ⟨h.residentOk.1, List.nodup_singleton _, fun a ha b hb => ?_⟩
    rintro rfl
    have hav : a = v := List.mem_singleton.1 hb
    exact this (hav ▸ ha)
  · rcases List.mem_append.1 hx with hx | hx
    · exact h.residentOk.2 x hx
    · rw [List.mem_singleton.1 hx]; exact hv'
  · show ((t.resident ++ [(v, f)]).map Prod.snd ++ t.freeFrames).Perm _
    rw [List.map_append]
    exact hperm
  · show (t.resident ++ [(v, f)]).length + t.freeFrames.length = t.cfg.space.frameCount
    have := hperm.length_eq
    simp only [List.length_append, List.length_map, List.length_cons, List.length_nil, List.length_range] at this ⊢
    exact this
  · show findKey (t.resident ++ [(v, f)]) w =
      ((ptRead (ptWrite t.pt v (loadedEntry t.cfg.space (loadBase (ptRead s.pt v)) f)) w).filter _).map _
    rw [findKey_append]
    by_cases hwv : w = v
    · subst hwv
      rw [h.absent, ptRead_ptWrite_self]
      simp [findKey, holdsFrame, loadedEntry, hf]
    · rw [ptRead_ptWrite_of_ne hwv, h.invK w hw]
      simp [findKey, Ne.symm hwv]

/-- Under the invariants the handler loads the page, and the invariants hold again (R170, R172). -/
theorem handleFault_good {s : State} (h : s.Inv) {v : Nat} (hv : v < s.cfg.space.virtualPageCount)
    (hr : findKey s.resident v = none) :
    ∃ f t, acquireFrame s = .frame f t ∧ Pending s t v f ∧
      handleFault s v = .loaded f ((t.loadPage v (loadBase (ptRead s.pt v)) f).appendResident v f) ∧
      ((t.loadPage v (loadBase (ptRead s.pt v)) f).appendResident v f).Inv := by
  obtain ⟨f, t, ha, hp⟩ := acquireFrame_pending h hr
  exact ⟨f, t, ha, hp, handleFault_eq hr ha hp.frame_lt,
    hp.inv_load h.1 hv fun e he => h.2.2.2.1 _ (mem_of_ptRead he)⟩

/-- Everything the handler can answer, in any state (R163, R164, R169). -/
theorem handleFault_cases (s : State) (v : Nat) :
    ((findKey s.resident v).isSome = true ∧ handleFault s v = .refused) ∨
    (∃ t, findKey s.resident v = none ∧ acquireFrame s = .panicked t ∧ handleFault s v = .panicked t) ∨
    (∃ f t, findKey s.resident v = none ∧ acquireFrame s = .frame f t ∧ 2 ^ t.cfg.space.frameBits ≤ f ∧
      handleFault s v = .panicked t) ∨
    (∃ f t, findKey s.resident v = none ∧ acquireFrame s = .frame f t ∧ f < t.cfg.space.frameCount ∧
      handleFault s v = .loaded f ((t.loadPage v (loadBase (ptRead s.pt v)) f).appendResident v f)) := by
  cases hr : findKey s.resident v with
  | some f => exact .inl ⟨rfl, by simp [handleFault, hr]⟩
  | none =>
    refine .inr ?_
    cases ha : acquireFrame s with
    | panicked t => exact .inl ⟨t, rfl, rfl, by simp [handleFault, hr, ha, finishLoad]⟩
    | frame f t =>
      refine .inr ?_
      rcases Nat.lt_or_ge f t.cfg.space.frameCount with hf | hf
      · exact .inr ⟨f, t, rfl, rfl, hf, handleFault_eq hr ha hf⟩
      · exact .inl ⟨f, t, rfl, rfl, hf, by simp [handleFault, hr, ha, finishLoad, frameOverflows,
          show 2 ^ t.cfg.space.frameBits ≤ f from hf]⟩

/-- INV-K in the words of R31. -/
theorem invK_iff (s : State) :
    s.InvK ↔ ∀ v < s.cfg.space.virtualPageCount,
      (v ∈ s.resident.map Prod.fst ↔
        ∃ e, ptRead s.pt v = some e ∧ e.present = true ∧ e.frame < s.cfg.space.frameCount) ∧
      (∀ f, findKey s.resident v = some f → ∃ e, ptRead s.pt v = some e ∧ f = e.frame) := by
  refine forall₂_congr fun v _ => ?_
  rw [← findKey_isSome]
  cases hp : ptRead s.pt v with
  | none => cases findKey s.resident v <;> simp
  | some e =>
    cases hr : findKey s.resident v <;> by_cases hh : holdsFrame s.cfg.space e = true <;>
      simp_all [Option.filter, holdsFrame]

end Sys2Proof.Machine
end

