-- ==== Sys2Proof/Laws/PerInstr.lean ====
section
/-! SUPPORT. Facts stated of every command and proved one constructor at a time. -/

namespace Sys2Proof.Laws.EncodeFits

open Sys2Proof Sys2Proof.Machine

/-- The packed word of a well-formed command has no bit above its `AIW + RW + FW + 4` bits (30_encoding.md R74). -/
def Statement (i : Instr) : Prop := ∀ w : PortWidths, i.wellFormed w → encodePacked w i < 2 ^ w.packedBits

theorem pack_lt {w : PortWidths} {c : Command} (hraw : c.raw < 2 ^ w.rw) (hval : c.val < 2 ^ w.fw) :
    pack w c < 2 ^ w.packedBits := by
  have hop : c.op.toNat + 1 ≤ 2 ^ 4 := c.op.isLt
  have haddr := signedPattern_lt w.aiw c.addr
  have h1 : c.raw * 2 ^ w.aiw + signedPattern w.aiw c.addr < 2 ^ (w.aiw + w.rw) := by
    rw [Nat.pow_add, Nat.mul_comm (2 ^ w.aiw)]
    calc c.raw * 2 ^ w.aiw + signedPattern w.aiw c.addr < (c.raw + 1) * 2 ^ w.aiw := by rw [Nat.add_mul]; omega
      _ ≤ _ := Nat.mul_le_mul_right _ hraw
  have h2 : c.val * 2 ^ (w.aiw + w.rw) + (c.raw * 2 ^ w.aiw + signedPattern w.aiw c.addr)
      < 2 ^ (w.aiw + w.rw + w.fw) := by
    rw [Nat.pow_add _ (w.aiw + w.rw), Nat.mul_comm (2 ^ (w.aiw + w.rw))]
    calc _ < (c.val + 1) * 2 ^ (w.aiw + w.rw) := by rw [Nat.add_mul]; omega
      _ ≤ _ := Nat.mul_le_mul_right _ hval
  rw [PortWidths.packedBits, Nat.pow_add _ _ 4, Nat.mul_comm _ (2 ^ 4), pack]
  calc _ < (c.op.toNat + 1) * 2 ^ (w.aiw + w.rw + w.fw) := by rw [Nat.add_mul]; omega
    _ ≤ _ := Nat.mul_le_mul_right _ hop

theorem translate (va : Int) : Statement (.translate va) := fun _ _ =>
  pack_lt (Nat.two_pow_pos _) (Nat.two_pow_pos _)

theorem resolve (va : Int) : Statement (.resolve va) := fun _ _ =>
  pack_lt (Nat.two_pow_pos _) (Nat.two_pow_pos _)

theorem touch (vpn : Int) : Statement (.touch vpn) := fun _ _ =>
  pack_lt (Nat.two_pow_pos _) (Nat.two_pow_pos _)

theorem handleFault (vpn : Int) : Statement (.handleFault vpn) := fun _ _ =>
  pack_lt (Nat.two_pow_pos _) (Nat.two_pow_pos _)

theorem decode (raw : Nat) : Statement (.decode raw) := fun _ h =>
  pack_lt h (Nat.two_pow_pos _)

theorem setPresent (raw : Nat) (value : Bool) : Statement (.setPresent raw value) := fun w h =>
  pack_lt h.1 <| by
    have := Nat.one_lt_two_pow (Nat.pos_iff_ne_zero.1 h.2)
    cases value
    · exact Nat.two_pow_pos _
    · exact this

theorem setFrame (raw newFrame : Nat) : Statement (.setFrame raw newFrame) := fun _ h =>
  pack_lt h.1 h.2

end Sys2Proof.Laws.EncodeFits
end

