-- ==== Sys2Proof/Laws/Step.lean ====
section
/-! SUPPORT. What a step can do, said once: the fault handler's outcomes in full, the inversion of `exec` (one command) and
the inversion of `step` (one move of the host). Later proofs about every command or every step go through these. -/

namespace Sys2Proof.Machine

theorem next_inj {s t : State} : (Host.Outcome.next s : Host.Outcome State Fault Refusal) = .next t ↔ s = t := by simp

theorem onlyAnswers_respond (s : State) (d : Response → Response) : OnlyAnswers s (s.respond d) :=
  ⟨⟨rfl, rfl, rfl, rfl, rfl⟩, rfl⟩

theorem onlyAnswers_respondTranslation (s : State) (r : Translation) : OnlyAnswers s (s.respondTranslation r) := by
  cases r <;> exact onlyAnswers_respond s _

theorem definePageFault_status (v : Nat) (stale : Option Entry) (r : Response) :
    (definePageFault v stale r).status = .pageFault := by
  cases stale <;> rfl

theorem keyOperand_eq_some {x : Int} {v : Nat} (h : keyOperand x = some v) : x = v := by
  unfold keyOperand at h
  split at h <;> simp at h
  omega

theorem slotOperand_eq_some {c : AddressSpaceConfig} {x : Int} {v : Nat} (h : slotOperand c x = some v) :
    x = v ∧ v < c.virtualPageCount := by
  unfold slotOperand at h
  split at h <;> simp at h
  omega

/-- A handler that panics has taken at most one page out of `resident` or one frame out of the queue, and has written at
most the victim's slot (R169). -/
theorem handleFault_panicked {s t : State} {v : Nat} (h : handleFault s v = .panicked t) :
    t.cfg = s.cfg ∧ t.host = s.host ∧ t.fatal = s.fatal ∧ t.draws = s.draws ∧
    (t.freeFrames = s.freeFrames ∨ ∃ f, s.freeFrames = f :: t.freeFrames) ∧
    (t.resident = s.resident ∨ (s.freeFrames = [] ∧ ∃ x, s.resident = x :: t.resident)) ∧
    (∀ a, (s.freeFrames = [] → s.resident.head?.map Prod.fst ≠ some a) → ptRead t.pt a = ptRead s.pt a) ∧
    (s.freeFrames ≠ [] → t.pt = s.pt) := by
  rcases handleFault_cases s v with ⟨-, h2⟩ | ⟨t', -, h1, h2⟩ | ⟨f, t', -, h1, -, h2⟩ | ⟨f, t', -, -, -, h2⟩ <;>
    rw [h2] at h <;> cases h
  · rcases acquireFrame_cases s with ⟨f, rest, hf, ha⟩ | ⟨u, f, rest, e, hf, hr, he, ha⟩ | ⟨hf, hr, ha⟩ |
      ⟨u, f, rest, hf, hr, he, ha⟩ <;> rw [h1] at ha <;> cases ha
    · exact ⟨rfl, rfl, rfl, rfl, .inl rfl, .inl rfl, fun _ _ => rfl, fun _ => rfl⟩
    · exact ⟨rfl, rfl, rfl, rfl, .inl rfl, .inr ⟨hf, _, hr⟩, fun _ _ => rfl, fun _ => rfl⟩
  · rcases acquireFrame_cases s with ⟨f, rest, hf, ha⟩ | ⟨u, f, rest, e, hf, hr, he, ha⟩ | ⟨hf, hr, ha⟩ |
      ⟨u, f, rest, hf, hr, he, ha⟩ <;> rw [h1] at ha <;> cases ha
    · exact ⟨rfl, rfl, rfl, rfl, .inr ⟨_, hf⟩, .inl rfl, fun _ _ => rfl, fun _ => rfl⟩
    · refine ⟨rfl, rfl, rfl, rfl, .inl rfl, .inr ⟨hf, _, hr⟩, fun a hx => ptRead_ptWrite_of_ne ?_ _ _,
        fun h => absurd hf h⟩
      rintro rfl
      exact hx hf (by rw [hr]; rfl)

/-- A handler that loads page `v` in frame `f`: where the frame came from, what the two structures and the store hold
then, and what did not change (R163 to R168). -/
theorem handleFault_loaded {s t : State} {v f : Nat} (h : handleFault s v = .loaded f t) :
    t.cfg = s.cfg ∧ t.host = s.host ∧ t.fatal = s.fatal ∧ t.draws = s.draws ∧ findKey s.resident v = none ∧
    ((s.freeFrames = f :: t.freeFrames ∧ t.resident = s.resident ++ [(v, f)]) ∨
      (s.freeFrames = [] ∧ t.freeFrames = [] ∧
        ∃ u rest, s.resident = (u, f) :: rest ∧ t.resident = rest ++ [(v, f)])) ∧
    (∃ e, ptRead t.pt v = some e ∧ e.present = true ∧ e.frame = f) ∧ f < s.cfg.space.frameCount ∧
    (∀ a, a ≠ v → (s.freeFrames = [] → s.resident.head?.map Prod.fst ≠ some a) → ptRead t.pt a = ptRead s.pt a) := by
  rcases handleFault_cases s v with ⟨-, h2⟩ | ⟨t', -, -, h2⟩ | ⟨f, t', -, -, -, h2⟩ | ⟨f, t', h0, h1, hlt, h2⟩ <;>
    rw [h2] at h <;> cases h
  rcases acquireFrame_cases s with ⟨f, rest, hf, ha⟩ | ⟨u, f, rest, e, hf, hr, he, ha⟩ | ⟨hf, hr, ha⟩ |
    ⟨u, f, rest, hf, hr, he, ha⟩ <;> rw [h1] at ha <;> cases ha
  · exact ⟨rfl, rfl, rfl, rfl, h0, .inl ⟨hf, rfl⟩, ⟨_, ptRead_ptWrite_self _ _ _, rfl, rfl⟩, hlt,
      fun a ha _ => ptRead_ptWrite_of_ne ha _ _⟩
  · refine ⟨rfl, rfl, rfl, rfl, h0, .inr ⟨hf, hf, u, rest, hr, rfl⟩, ⟨_, ptRead_ptWrite_self _ _ _, rfl, rfl⟩, hlt,
      fun a ha hx => (ptRead_ptWrite_of_ne ha _ _).trans (ptRead_ptWrite_of_ne ?_ _ _)⟩
    rintro rfl
    exact hx hf (by rw [hr]; rfl)

/-- The retry of a RESOLVE whose page has just been loaded succeeds, on the frame that was assigned (R195, R196). -/
theorem retry_of_loaded {s t : State} {va : Int} {v f : Nat} (hr : addressInRange s.cfg.space va = true)
    (hv : vpnOf s.cfg.space va.toNat = v) (h : handleFault s v = .loaded f t) :
    ∃ e, ptRead t.pt v = some e ∧ e.present = true ∧ e.frame = f ∧ f < s.cfg.space.frameCount ∧ t.cfg = s.cfg ∧
      translateVa t.cfg.space t.pt va = .ok
        { vpn := v, offset := offsetOf s.cfg.space va.toNat, frame := f,
          pa := physicalAddress s.cfg.space f (offsetOf s.cfg.space va.toNat), va := va.toNat, raw := e.raw } := by
  obtain ⟨hc, -, -, -, -, -, ⟨e, he, hp, hef⟩, hlt, -⟩ := handleFault_loaded h
  refine ⟨e, he, hp, hef, hlt, hc, ?_⟩
  rw [hc]
  rcases translate_cases s.cfg.space t.pt va with ⟨h0, -⟩ | ⟨-, h1, -⟩ | ⟨d, -, h1, h2, -⟩ | ⟨d, -, h1, -, h3, -⟩ |
      ⟨d, -, h1, -, -, h⟩
  · rw [hr] at h0; cases h0
  all_goals rw [hv, he] at h1; cases h1
  · rw [hp] at h2; cases h2
  · omega
  · rw [h, hv, hef]

/-- The command `i` leads to the fault handler for page `v`, or to the touch of it: as its operand, or as the page of
RESOLVE's address. -/
abbrev ResolvesPage (s : State) (i : Instr) (v : Nat) : Prop :=
  ∃ va : Int, i = .resolve va ∧ addressInRange s.cfg.space va = true ∧ vpnOf s.cfg.space va.toNat = v

/-- Every way a command can end in a next state. -/
inductive Effect (i : Instr) (s t : State) : Prop where
  | answers (h : OnlyAnswers s t) (fatal_iff : t.resp.status = .fatal ↔ s.fatal = true)
  | touches (v : Nat) (moved : t.resident = moveToBack s.resident v)
      (same : t.cfg = s.cfg ∧ t.pt = s.pt ∧ t.freeFrames = s.freeFrames ∧ t.fatal = s.fatal ∧ t.host = s.host)
      (status : t.resp.status = .ok) (running : s.fatal = false) (asked : i = .touch v ∨ ResolvesPage s i v)
  | loads (v f : Nat) (u : State) (handled : handleFault s v = .loaded f u) (same : SameBlock u t)
      (host : t.host = u.host) (status : t.resp.status = .ok) (running : s.fatal = false)
      (slot : v < s.cfg.space.virtualPageCount) (asked : i = .handleFault v ∨ ResolvesPage s i v)
  | panics (v : Nat) (u : State) (handled : handleFault s v = .panicked u) (eq : t = u.panic)
      (running : s.fatal = false) (slot : v < s.cfg.space.virtualPageCount)
      (asked : i = .handleFault v ∨ ResolvesPage s i v)

theorem effect_of_signal {i : Instr} {s : State} (hf : s.fatal = false) {st : Status} (hst : st ≠ .fatal) :
    Effect i s (s.signal st) :=
  .answers (onlyAnswers_respond s _) (by simp [hf, hst])

theorem effect_of_respondOk {i : Instr} {s : State} (hf : s.fatal = false) (d : Response → Response) :
    Effect i s (s.respondOk d) :=
  .answers (onlyAnswers_respond s _) (by simp [hf])

theorem effect_of_takePageFault {s t : State} {va : Int} {v : Nat} (hf : s.fatal = false)
    (hr : addressInRange s.cfg.space va = true) (hv : vpnOf s.cfg.space va.toNat = v)
    (h : takePageFault s va v = .next t) : Effect (.resolve va) s t := by
  have hlt : v < s.cfg.space.virtualPageCount := hv ▸ vpnOf_lt hr
  rw [takePageFault] at h
  split at h
  · rename_i f u hu
    obtain ⟨e, -, -, -, -, -, htr⟩ := retry_of_loaded hr hv hu
    rw [next_inj, returnFromPageFault, htr] at h
    subst h
    exact .loads v f u hu ⟨rfl, rfl, rfl, rfl, rfl⟩ rfl rfl hf hlt (.inr ⟨va, rfl, hr, hv⟩)
  · rename_i u hu
    rw [next_inj] at h
    exact .panics v u hu h.symm hf hlt (.inr ⟨va, rfl, hr, hv⟩)
  · cases h

/-- The inversion of `exec`: a command that gives a next state only answers, or touches one page, or loads one page, or
panics in the fault handler. -/
theorem exec_effect {i : Instr} {s t : State} (h : exec i s = .next t) : Effect i s t := by
  cases hf : s.fatal with
  | true =>
    have : t = s.signal .fatal := by
      cases i <;> simp only [exec, execTranslate, execResolve, execTouch, execHandleFault, execDecode, execSetPresent,
        execSetFrame, unlessFatal_of_panicked hf, next_inj] at h <;> exact h.symm
    subst this
    exact .answers (onlyAnswers_respond s _) (by simp [hf])
  | false =>
    cases i with
    | translate va =>
      rw [exec, execTranslate, unlessFatal_of_running hf, next_inj] at h
      subst h
      refine .answers (onlyAnswers_respondTranslation _ _) ?_
      cases translateVa s.cfg.space s.pt va <;> simp [State.respondTranslation, definePageFault_status, hf]
    | decode raw =>
      rw [exec, execDecode, unlessFatal_of_running hf, next_inj] at h
      exact h ▸ effect_of_respondOk hf _
    | setPresent raw value =>
      rw [exec, execSetPresent, unlessFatal_of_running hf, next_inj] at h
      exact h ▸ effect_of_respondOk hf _
    | setFrame raw f =>
      rw [exec, execSetFrame, unlessFatal_of_running hf] at h
      split at h <;> rw [next_inj] at h
      · exact h ▸ effect_of_signal hf (by decide)
      · exact h ▸ effect_of_respondOk hf _
    | touch x =>
      rw [exec, execTouch, unlessFatal_of_running hf] at h
      cases hk : keyOperand x with
      | none => rw [hk] at h; exact next_inj.1 h ▸ effect_of_respondOk hf _
      | some v =>
        rw [hk] at h
        have h := next_inj.1 h
        subst h
        exact .touches v rfl ⟨rfl, rfl, rfl, rfl, rfl⟩ rfl hf (.inl (by rw [keyOperand_eq_some hk]))
    | handleFault x =>
      rw [exec, execHandleFault, unlessFatal_of_running hf] at h
      cases hk : slotOperand s.cfg.space x with
      | none => rw [hk] at h; exact next_inj.1 h ▸ effect_of_signal hf (by decide)
      | some v =>
        obtain ⟨rfl, hv⟩ := slotOperand_eq_some hk
        rw [hk] at h
        simp only at h
        split at h
        · rename_i f u hu
          rw [next_inj] at h
          subst h
          exact .loads v f u hu ⟨rfl, rfl, rfl, rfl, rfl⟩ rfl rfl hf hv (.inl rfl)
        · rename_i u hu
          rw [next_inj] at h
          exact .panics v u hu h.symm hf hv (.inl rfl)
        · cases h
    | resolve va =>
      rw [exec, execResolve, unlessFatal_of_running hf] at h
      rcases translate_cases s.cfg.space s.pt va with ⟨-, h1⟩ | ⟨hr, -, h1⟩ | ⟨e, hr, -, -, h1⟩ | ⟨e, -, -, -, -, h1⟩ |
          ⟨e, hr, -, -, -, h1⟩ <;> rw [h1] at h
      · exact next_inj.1 h ▸ effect_of_signal hf (by decide)
      · exact effect_of_takePageFault hf hr rfl h
      · exact effect_of_takePageFault hf hr rfl h
      · exact next_inj.1 h ▸ effect_of_signal hf (by decide)
      · have h := next_inj.1 h
        subst h
        exact .touches _ rfl ⟨rfl, rfl, rfl, rfl, rfl⟩ rfl hf (.inr ⟨va, rfl, hr, rfl⟩)

/-- The inversion of `step`: the block waited, or ran a command, or answered a reserved opcode, or was reset. -/
theorem step_cases {s t : State} (h : step s = .next t) :
    (s.host = [] ∧ t = s) ∨
    (∃ c rest i, s.host = .command c :: rest ∧ decodeCommand c = .instr i ∧ exec i (s.withHost rest) = .next t) ∨
    (∃ c rest r, s.host = .command c :: rest ∧ decodeCommand c = .rejected r ∧
      illegalCommand (s.withHost rest) = .next t) ∨
    (∃ img rest, s.host = .reset img :: rest ∧ launchAdmitted s.cfg img ∧
      t = State.launch s.cfg img s.draws rest) := by
  rw [step, takeMove] at h
  split at h
  · rename_i hh
    exact .inl ⟨hh, (next_inj.1 h).symm⟩
  · rename_i c rest hh
    rw [runCommand] at h
    split at h
    · rename_i i hd
      exact .inr (.inl ⟨c, rest, i, hh, hd, h⟩)
    · rename_i r hd
      exact .inr (.inr (.inl ⟨c, rest, r, hh, hd, h⟩))
  · rename_i img rest hh
    rw [resetBlock] at h
    split at h
    · rename_i ha
      exact .inr (.inr (.inr ⟨img, rest, hh, ha, (next_inj.1 h).symm⟩))
    · cases h

/-- A reserved opcode only answers (R77, R217). -/
theorem illegalCommand_next {s t : State} (h : illegalCommand s = .next t) :
    OnlyAnswers s t ∧ t.resp.status = if s.fatal then .fatal else .illegalCommand := by
  cases hf : s.fatal with
  | true =>
    rw [illegalCommand, unlessFatal_of_panicked hf, next_inj] at h
    exact h ▸ ⟨onlyAnswers_respond s _, rfl⟩
  | false =>
    rw [illegalCommand, unlessFatal_of_running hf, next_inj] at h
    exact h ▸ ⟨onlyAnswers_respond s _, rfl⟩

end Sys2Proof.Machine
end

