-- ==== Sys2Proof/Tests/Slice0.lean ====
section
/-! SUPPORT. The model's own tests. Every expected value is transcribed from spec 95_test_vectors.md, whose row is named; no value comes
from running the model. The second half gives, for each obligation with hypotheses, a named witness that meets them. -/

namespace Sys2Proof.Tests

open Sys2Proof Sys2Proof.Machine

/-! ### Small states, and the next state of an outcome -/

/-- The next state of an outcome, if it has one. -/
def after : Host.Outcome State Fault Refusal → Option State
  | .next t => some t
  | .fault _ => none
  | .refused _ => none

/-- The refusal of an outcome, if it is one. -/
def refusal : Host.Outcome State Fault Refusal → Option Refusal
  | .next _ => none
  | .fault _ => none
  | .refused r => some r

/-- A block with the table widths of R74, reset with these exponents, this table and these orders. -/
def block (o f v : Nat) (pt : PageTable) (initOrder freeOrder : List Nat) : State :=
  State.launch { space := { offsetBits := o, frameBits := f, vpnBits := v }, widths := .table }
    { ptInit := pt, initOrder := initOrder, freeOrder := freeOrder } 0 []

/-- The table the VT vectors start from (CFG-A). -/
def tableA : PageTable :=
  [(0, ⟨true, 0, 0b100⟩), (3, ⟨true, 2, 0b1010110⟩), (5, ⟨false, 3, 0b10011⟩), (6, ⟨true, 5, 0b101⟩)]

/-- The image of the VT vectors, with the default orders. -/
def imageA : ResetImage := { ptInit := tableA, initOrder := [0, 3], freeOrder := [1, 3] }

/-- The state the VT vectors start from. -/
def blockA : State := block 12 2 3 tableA [0, 3] [1, 3]

/-- CFG-B full: program P1 after step 3 (VPN 1 is the oldest). -/
def fullB : State := block 4 1 2 [(0, ⟨true, 0, 0b10⟩), (1, ⟨true, 1, 0b11⟩)] [1, 0] []

/-- CFG-D full: the state after VL4. -/
def fullD : State :=
  block 8 2 4 [(0, ⟨true, 0, 0b100⟩), (1, ⟨true, 1, 0b101⟩), (2, ⟨true, 2, 0b110⟩), (3, ⟨true, 3, 0b111⟩)]
    [0, 1, 2, 3] []

/-- CFG-B with nothing resident and nothing free (VF1); INV-L2 does not hold. -/
def brokenB : State := block 4 1 2 [] [] []

/-- CFG-A after a panic (VF3 to VF5 in the VT block). -/
def fatalA : State := { blockA with fatal := true }

/-! ### WellFormed: an ill-formed term for each check -/

theorem test_wellFormed_address_too_high : ¬ (Instr.translate 524288).wellFormed .table := by decide
theorem test_wellFormed_address_too_low : ¬ (Instr.resolve (-524289)).wellFormed .table := by decide
theorem test_wellFormed_touch_operand : ¬ (Instr.touch 524288).wellFormed .table := by decide
theorem test_wellFormed_handleFault_operand : ¬ (Instr.handleFault (-524289)).wellFormed .table := by decide
theorem test_wellFormed_raw_too_wide : ¬ (Instr.decode 256).wellFormed .table := by decide
theorem test_wellFormed_setPresent_raw : ¬ (Instr.setPresent 256 true).wellFormed .table := by decide
theorem test_wellFormed_setPresent_no_val_field :
    ¬ (Instr.setPresent 0 true).wellFormed { aiw := 20, rw := 8, fw := 0 } := by decide
theorem test_wellFormed_setFrame_raw : ¬ (Instr.setFrame 256 0).wellFormed .table := by decide
theorem test_wellFormed_setFrame_frame : ¬ (Instr.setFrame 0 16).wellFormed .table := by decide
theorem test_wellFormed_accepts_boundaries :
    (Instr.translate (-524288)).wellFormed .table ∧ (Instr.resolve 524287).wellFormed .table ∧
    (Instr.setFrame 255 15).wellFormed .table := by decide

/-! ### Decoding: the packed column of the vectors -/

/-- VT6. `op = 0001`, `val = 0000`, `raw = 00000000`, `addr = 0000 0011 1010 1011 1100`. -/
theorem test_decode_translate :
    decodeTableWord 40 0b000100000000000000000011101010111100 = some (.translate 0x3ABC) := by decide
/-- P4 step 3. `op = 0010`, `addr` all ones is -1. -/
theorem test_decode_resolve :
    decodeTableWord 40 0b001000000000000011111111111111111111 = some (.resolve (-1)) := by decide
/-- VL8. -/
theorem test_decode_touch :
    decodeTableWord 40 0b001100000000000000000000000000010000 = some (.touch 16) := by decide
/-- VL11. -/
theorem test_decode_handleFault :
    decodeTableWord 40 0b010000000000000000000000000000000001 = some (.handleFault 1) := by decide
/-- VK1. -/
theorem test_decode_decode :
    decodeTableWord 40 0b010100000001010100000000000000000000 = some (.decode 0b10101) := by decide
/-- VK8 and VK12: only `val[0]` counts. -/
theorem test_decode_setPresent :
    decodeTableWord 40 0b011000010001000100000000000000000000 = some (.setPresent 0b10001 true) ∧
    decodeTableWord 40 0b011000100001010100000000000000000000 = some (.setPresent 0b10101 false) := by decide
/-- VK13. -/
theorem test_decode_setFrame :
    decodeTableWord 40 0b011100110001010100000000000000000000 = some (.setFrame 0b10101 3) := by decide
/-- VT12: the sign bit of `addr`. -/
theorem test_decode_most_negative_address : decodeTableWord 40 0x100080000 = some (.translate (-524288)) := by decide
/-- VX1 to VX5. -/
theorem test_decode_reserved :
    [0x000000000, 0x800000000, 0x900001000, 0xA00000000, 0xB00000000, 0xC00000000, 0xD00000000, 0xE00000000,
      0xFFFFFFFFF, 0x0FFFFFFFF].map (decodeTableWord 40) = List.replicate 10 none := by decide
/-- R74: a packed command has 36 bits at these widths. -/
theorem test_decode_too_long : decodePacked .table 0x1100001000 = .rejected .notACommandWord := by decide
/-- The encoder writes the packed column of VT11, VK10 and VK17. -/
theorem test_encode :
    encodePacked .table (.translate (-1)) = 0x1000FFFFF ∧
    encodePacked .table (.setPresent 0b11111111 false) = 0x60FF00000 ∧
    encodePacked .table (.setFrame 0b10101 4) = 0x741500000 := by decide

/-! ### One step of each command -/

/-- The state the VT vectors give after reset. -/
theorem test_reset_vt :
    blockA.resident = [(0, 0), (3, 2)] ∧ blockA.freeFrames = [1, 3] ∧
    defaultImage blockA.cfg.space tableA = imageA := by decide
/-- VT6. -/
theorem test_translate_ok :
    (after (step (blockA.withFetchWord 40 0x100003ABC))).map
      (fun t => (t.resp.status, t.resp.vpn, t.resp.offset, t.resp.frame, t.resp.pa, t.resp.raw))
      = some (.ok, 3, 0xABC, 2, 0x2ABC, 0b1010110) := by decide
/-- VT7, VT8, VT10. -/
theorem test_translate_signals :
    (after (exec (.translate 0x5123) blockA)).map
      (fun t => (t.resp.status, t.resp.vpn, t.resp.entrySome, t.resp.entryFrame, t.resp.raw))
      = some (.pageFault, 5, true, 3, 0b10011) ∧
    (after (exec (.translate 0x6000) blockA)).map (fun t => t.resp.status) = some .invalidConfiguration ∧
    (after (exec (.translate 0x8000) blockA)).map (fun t => t.resp.status) = some .addressOutOfRange := by decide
/-- VL5. -/
theorem test_touch_moves :
    (after (exec (.touch 0) fullD)).map State.resident = some [(1, 1), (2, 2), (3, 3), (0, 0)] := by decide
/-- VL8, VL9. -/
theorem test_touch_no_key :
    (after (exec (.touch 16) fullD)).map State.resident = some fullD.resident ∧
    (after (exec (.touch (-1)) fullD)).map State.resident = some fullD.resident := by decide
/-- P1 step 4: the victim is VPN 1, the least recently used. -/
theorem test_handleFault_evicts :
    (after (exec (.handleFault 2) fullB)).map (fun t => (t.resp.frame, t.resident, t.pt))
      = some (1, [(0, 0), (2, 1)],
          [(0, ⟨true, 0, 0b10⟩), (1, ⟨false, 1, 0b01⟩), (2, ⟨true, 1, 0b11⟩)]) := by decide
/-- VF1, and VL14. -/
theorem test_handleFault_panic_and_refusal :
    (after (exec (.handleFault 0) brokenB)).map (fun t => (t.resp.status, t.fatal, t.pt)) = some (.fatal, true, []) ∧
    refusal (exec (.handleFault 3) fullD) = some (.pageAlreadyResident 3) := by decide
/-- VR6 from the state after VR5. -/
theorem test_resolve_fault :
    (after (exec (.resolve 0x400) (fullD.withResident [(1, 1), (2, 2), (3, 3), (0, 0)]))).map
      (fun t => (t.resp.frame, t.resp.pa, t.resp.raw, t.resident))
      = some (1, 0x100, 0b101, [(2, 2), (3, 3), (0, 0), (4, 1)]) := by decide
/-- VR5. -/
theorem test_resolve_hit :
    (after (exec (.resolve 0) fullD)).map (fun t => (t.resp.pa, t.resident))
      = some (0, [(1, 1), (2, 2), (3, 3), (0, 0)]) := by decide
/-- VK1 and VK4. -/
theorem test_decode_fields :
    (after (exec (.decode 0b10101) blockA)).map
      (fun t => (t.resp.frame, [t.resp.present, t.resp.protection, t.resp.modified, t.resp.referenced,
        t.resp.cacheDisabled])) = some (1, [true, false, true, false, false]) ∧
    (after (exec (.decode 0b11111011) blockA)).map
      (fun t => (t.resp.frame, [t.resp.present, t.resp.protection, t.resp.modified, t.resp.referenced,
        t.resp.cacheDisabled])) = some (3, [false, true, true, true, true]) := by decide
/-- VK6, VK8, VK10. -/
theorem test_setPresent :
    (after (exec (.setPresent 0b10101 false) blockA)).map (fun t => t.resp.raw) = some 0b10001 ∧
    (after (exec (.setPresent 0b10001 true) blockA)).map (fun t => t.resp.raw) = some 0b10101 ∧
    (after (exec (.setPresent 0b11111111 false) blockA)).map (fun t => t.resp.raw) = some 0b11111011 := by decide
/-- VK13, VK15, VK17. -/
theorem test_setFrame :
    (after (exec (.setFrame 0b10101 3) blockA)).map (fun t => t.resp.raw) = some 0b10111 ∧
    (after (exec (.setFrame 0b11111100 2) blockA)).map (fun t => t.resp.raw) = some 0b11111110 ∧
    (after (exec (.setFrame 0b10101 4) blockA)).map (fun t => t.resp.status) = some .invalidConfiguration := by decide
/-- The frame-bits-zero rows after VK18 (CFG-C). -/
theorem test_codec_without_frame_bits :
    (after (exec (.setPresent 0b10101 false) (block 0 0 1 [] [] [0]))).map (fun t => t.resp.raw) = some 0b10100 ∧
    (after (exec (.setFrame 0b10101 1) (block 0 0 1 [] [] [0]))).map (fun t => t.resp.status)
      = some .invalidConfiguration := by decide
/-- VX2, and VF5: the panic has priority. -/
theorem test_reserved_opcode :
    (after (step (blockA.withFetchWord 40 0x800000000))).map (fun t => t.resp.status) = some .illegalCommand ∧
    (after (step (fatalA.withFetchWord 40 0x900000000))).map (fun t => t.resp.status) = some .fatal := by decide
/-- `load_raw(0b1010001, 2) = 0b1010110` (after VK18). -/
theorem test_loadRaw : loadRaw 2 0b1010001 2 = 0b1010110 := by decide
/-- The two rows of the reset orders after VL14. -/
theorem test_reset_orders :
    (block 4 1 2 [(1, ⟨true, 1, 0b11⟩), (2, ⟨true, 0, 0b10⟩)] [1, 2] []).resident = [(1, 1), (2, 0)] ∧
    (block 4 1 2 [(1, ⟨true, 1, 0b11⟩), (2, ⟨true, 0, 0b10⟩)] [2, 1] []).resident = [(2, 0), (1, 1)] := by decide

/-! ### Configuration (VC) -/

/-- VC1, VC3, VC5, VC6, VC7, VC10. -/
theorem test_createCounts :
    createCounts 4096 4 8 = .ok ⟨12, 2, 3⟩ ∧ createCounts 1 1 2 = .ok ⟨0, 0, 1⟩ ∧
    createCounts 4096 3 8 = .signal (.invalidConfiguration .frameCount (some 3)) ∧
    createCounts 4096 0 8 = .signal (.invalidConfiguration .frameCount (some 0)) ∧
    createCounts 4096 (-4) 8 = .signal (.invalidConfiguration .frameCount (some (-4))) ∧
    createCounts 1000 3 6 = .signal (.invalidConfiguration .pageSizeBytes (some 1000)) := by decide
/-- VC12 to VC16. VC13 gives the verdict only; the field and value it carries are those of R210 (assumption 21). -/
theorem test_createMem :
    createMem 4096 16384 32768 = .ok ⟨12, 2, 3⟩ ∧
    createMem 4096 16000 32768 = .signal (.invalidConfiguration .physicalMem (some 16000)) ∧
    createMem 4096 12288 32768 = .signal (.invalidConfiguration .frameCount (some 3)) ∧
    createMem 4096 0 32768 = .signal (.invalidConfiguration .frameCount (some 0)) ∧
    createMem 0 16384 32768 = .signal (.invalidConfiguration .pageSizeBytes (some 0)) := by decide
/-- VC17, VC18, VC19: the verdict. The field named is a free value. -/
theorem test_create_pairs :
    (∃ f v, create ⟨.bytes 4096, none, none, none, none⟩ = .signal (.invalidConfiguration f v)) ∧
    (∃ f v, create ⟨.bytes 4096, some 4, none, none, none⟩ = .signal (.invalidConfiguration f v)) ∧
    (∃ f v, create ⟨.bytes 4096, some 4, some 8, some (.bytes 16384), some (.bytes 32768)⟩
      = .signal (.invalidConfiguration f v)) := by
  have named := fun ps fc vc pm vm => wrongPairs_names ps fc vc pm vm
  refine ⟨?_, ?_, ?_⟩ <;> simp only [create, SizeArg.toBytes, optionalBytes, Elaborated.andThen, createFromPair] <;>
    obtain ⟨x, -, h⟩ := named _ _ _ _ _ <;> exact ⟨_, _, congrArg _ h⟩
/-- VC20 (the configuration of VC1), VC21, VC23. -/
theorem test_parseSize_ok :
    create ⟨.text "4KiB".toList, some 4, some 8, none, none⟩ = createCounts 4096 4 8 ∧
    parseSize "4kib".toList = .ok 4096 ∧ parseSize "4KIB".toList = .ok 4096 ∧
    parseSize "0.5KiB".toList = .ok 512 ∧ parseSize "1.5MiB".toList = .ok 1572864 := by decide
/-- VC24 and VC25. -/
theorem test_parseSize_signals :
    parseSize "1.5B".toList = .signal .invalidSize ∧ parseSize "4KB".toList = .signal .invalidSize ∧
    parseSize "4".toList = .signal .invalidSize ∧ parseSize "".toList = .signal .invalidSize := by decide
/-- VC25. -/
theorem test_parseSize_malformed :
    parseSize "-4KiB".toList = .signal .invalidSize ∧ parseSize ".5KiB".toList = .signal .invalidSize ∧
    parseSize "5.KiB".toList = .signal .invalidSize ∧ parseSize "1e3B".toList = .signal .invalidSize := by decide
/-- VC27. -/
theorem test_parseSize_white_space : parseSize "4 KiB".toList = .sizeTextRefused := by decide

/-! ### Witnesses: a concrete state and operands that meet all hypotheses of each obligation, one for each clause -/

/-- CFG-B full, with the stale entry of an evicted page: program P1 after step 4. -/
def staleB : State := block 4 1 2 [(0, ⟨true, 0, 0b10⟩), (1, ⟨false, 1, 0b01⟩), (2, ⟨true, 1, 0b11⟩)] [0, 2] []

/-- The state after VT's reset with VPN 3 mapped and not resident (INV-K does not hold). -/
def strayA : State := blockA.withResident [(0, 0)]

/-- The record that presents opcode `op` with the given operand fields. -/
def record (op : BitVec 4) (addr : Int) (raw val : Nat) : Command := { op := op, addr := addr, raw := raw, val := val }

theorem witness_DecodingInvertsEncoding :
    (Instr.translate (-524288)).wellFormed .table ∧ (Instr.resolve 524287).wellFormed .table ∧
    (Instr.touch (-1)).wellFormed .table ∧ (Instr.handleFault 16).wellFormed .table ∧
    (Instr.decode 255).wellFormed .table ∧ (Instr.setPresent 255 true).wellFormed .table ∧
    (Instr.setFrame 255 15).wellFormed .table := by decide

theorem witness_UnusedFieldsAreIgnored :
    ∀ x ∈ [(record 1 4096 0xAB 15, record 1 4096 0 0), (record 4 7 0xAB 15, record 4 7 0 0),
      (record 5 (-1) 255 15, record 5 0 255 0), (record 6 (-1) 255 0b0011, record 6 0 255 1),
      (record 7 (-1) 255 15, record 7 0 255 15), (record 0 1 2 3, record 0 0 0 0), (record 8 1 2 3, record 8 0 0 0)],
      x.1.op = x.2.op ∧ (1 ≤ x.1.op.toNat → x.1.op.toNat ≤ 4 → x.1.addr = x.2.addr) ∧
      (5 ≤ x.1.op.toNat → x.1.op.toNat ≤ 7 → x.1.raw = x.2.raw) ∧
      (x.1.op.toNat = 6 → x.1.val % 2 = x.2.val % 2) ∧ (x.1.op.toNat = 7 → x.1.val = x.2.val) ∧ x.1 ≠ x.2 := by decide

theorem witness_ReservedOpcodesAreIllegal :
    ∀ op ∈ [0#4, 8#4, 15#4],
      (blockA.withHost [.command (record op 0 0 0)]).host = .command (record op 0 0 0) :: [] ∧
      (blockA.withHost [.command (record op 0 0 0)]).fatal = false ∧
      ((record op 0 0 0).op.toNat = 0 ∨ 8 ≤ (record op 0 0 0).op.toNat) := by decide

theorem witness_StepRunsTheDecodedCommand :
    ((blockA.withHost [.command (record 3 0 0 0)]).host = .command (record 3 0 0 0) :: [] ∧
      decodeCommand (record 3 0 0 0) = .instr (.touch 0)) ∧ State.reset.host = [] := by decide

theorem witness_PlacedTableWordRuns : decodeTableWord 40 0x7F1500000 = some (.setFrame 0b10101 15) := by decide

theorem witness_ResetRebuildsTheState :
    ((fatalA.withHost [.reset imageA]).host = .reset imageA :: [] ∧ launchAdmitted fatalA.cfg imageA) ∧
    ((fatalA.withHost [.reset { imageA with freeOrder := [1] }]).host = .reset { imageA with freeOrder := [1] } :: [] ∧
      ¬ launchAdmitted fatalA.cfg { imageA with freeOrder := [1] }) := by decide

theorem witness_DecodeAnswersEveryField : State.reset.fatal = false := by decide

theorem witness_DecodeInvertsPacking : State.reset.fatal = false ∧ 3 < 2 ^ State.reset.cfg.space.frameBits := by decide

theorem witness_SetPresentAssignsOnlyThePresentBit : State.reset.fatal = false := by decide

theorem witness_SetFrameReplacesOnlyTheFrameField :
    State.reset.fatal = false ∧ 3 < 2 ^ State.reset.cfg.space.frameBits := by decide

theorem witness_SetFrameOverflowIsAnError :
    State.reset.fatal = false ∧ State.reset.cfg.space.frameCount ≤ 4 := by decide

theorem witness_LoadedRawWordIsTheComposition : 3 < 2 ^ 2 ∧ 0 < 2 ^ 0 := by decide

theorem witness_TranslateAnswersThePhysicalAddress :
    ∀ va ∈ [0x3000, 0x3FFF], blockA.fatal = false ∧ va < 2 ^ blockA.cfg.space.virtualAddressBits ∧
      ptRead blockA.pt (va / 2 ^ blockA.cfg.space.offsetBits) = some ⟨true, 2, 0b1010110⟩ ∧
      2 < blockA.cfg.space.frameCount := by decide

theorem witness_AddressOutOfRangeExactlyOutsideTheRange :
    blockA.fatal = false ∧ ((-1 : Int) < 0 ∨ (-1 : Int) > 2 ^ blockA.cfg.space.virtualAddressBits - 1) ∧
    ((32768 : Int) < 0 ∨ (32768 : Int) > 2 ^ blockA.cfg.space.virtualAddressBits - 1) ∧
    ¬ ((32767 : Int) < 0 ∨ (32767 : Int) > 2 ^ blockA.cfg.space.virtualAddressBits - 1) := by decide

theorem witness_PageFaultExactlyWhenAbsentOrNotPresent :
    blockA.fatal = false ∧ 0x7FFF < 2 ^ blockA.cfg.space.virtualAddressBits ∧
    ptRead blockA.pt (0x7FFF / 2 ^ blockA.cfg.space.offsetBits) = none ∧
    ptRead blockA.pt (0x5000 / 2 ^ blockA.cfg.space.offsetBits) = some ⟨false, 3, 0b10011⟩ := by decide

theorem witness_CorruptEntryIsInvalidConfiguration :
    blockA.fatal = false ∧ 0x6000 < 2 ^ blockA.cfg.space.virtualAddressBits ∧
    ptRead blockA.pt (0x6000 / 2 ^ blockA.cfg.space.offsetBits) = some ⟨true, 5, 0b101⟩ ∧
    blockA.cfg.space.frameCount ≤ 5 := by decide

theorem witness_ReadOnlyCommandsAlwaysAnswerAndChangeNothing :
    ∀ i ∈ [Instr.translate (-1), .decode 255, .setPresent 255 true, .setFrame 255 15],
      i ∈ [Instr.translate (-1), .decode 255, .setPresent 255 true, .setFrame 255 15] := by decide

theorem witness_TranslationRecombines : ∃ t, exec (.translate 0x3FFF) blockA = .next t ∧ t.resp.status = .ok :=
  ⟨_, rfl, rfl⟩

theorem witness_AddressesOfOnePageAnswerAlike :
    (blockA.fatal = false ∧ 0x3000 < 2 ^ blockA.cfg.space.virtualAddressBits ∧
      0x3FFF < 2 ^ blockA.cfg.space.virtualAddressBits ∧
      0x3000 / 2 ^ blockA.cfg.space.offsetBits = 0x3FFF / 2 ^ blockA.cfg.space.offsetBits) ∧
    (∃ t u, exec (.translate 0x3000) blockA = .next t ∧ exec (.translate 0x3FFF) blockA = .next u ∧
      t.resp.status = .ok) ∧
    (∃ t u, exec (.translate 0x5000) blockA = .next t ∧ exec (.translate 0x5FFF) blockA = .next u ∧
      t.resp.status = .pageFault ∧ t.resp.entrySome = true) :=
  ⟨by decide, ⟨_, _, rfl, rfl, rfl⟩, ⟨_, _, rfl, rfl, rfl, rfl⟩⟩

theorem witness_TouchMovesAResidentPageToTheEnd :
    fullD.fatal = false ∧
    (fullD.resident = [] ++ (0, 0) :: [(1, 1), (2, 2), (3, 3)] ∧ 0 ∉ ([] : List (Nat × Nat)).map Prod.fst) ∧
    (fullD.resident = [(0, 0), (1, 1), (2, 2)] ++ (3, 3) :: [] ∧ 3 ∉ [(0, 0), (1, 1), (2, 2)].map Prod.fst) := by decide

theorem witness_TouchOfANonResidentNumberIsANoOp :
    fullD.fatal = false ∧ ∀ v ∈ [(-1 : Int), 9, 16], ∀ x ∈ fullD.resident, (x.1 : Int) ≠ v := by decide

theorem witness_HandleFaultOutOfRange :
    fullD.fatal = false ∧
    ∀ v ∈ [(-1 : Int), 16], v < 0 ∨ (fullD.cfg.space.virtualPageCount : Int) ≤ v := by decide

/-- VL14; and VPN 1 of the reset block made resident without an entry, which breaks INV-K. -/
theorem witness_FaultOnAResidentPageIsRefused :
    (fullD.fatal = false ∧ 3 < fullD.cfg.space.virtualPageCount ∧ 3 ∈ fullD.resident.map Prod.fst) ∧
    (∀ va ∈ [0x1000, 0x1FFF], va < 2 ^ (blockA.withResident [(1, 1)]).cfg.space.virtualAddressBits ∧
      va / 2 ^ (blockA.withResident [(1, 1)]).cfg.space.offsetBits = 1) ∧
    (1 < (blockA.withResident [(1, 1)]).cfg.space.virtualPageCount ∧
      1 ∈ (blockA.withResident [(1, 1)]).resident.map Prod.fst ∧
      ptRead (blockA.withResident [(1, 1)]).pt 1 = none) := by decide

theorem witness_HandleFaultTakesTheFirstFreeFrame :
    ∀ x ∈ [(7, none), (5, some ⟨false, 3, 0b10011⟩)],
      blockA.fatal = false ∧ x.1 < blockA.cfg.space.virtualPageCount ∧ x.1 ∉ blockA.resident.map Prod.fst ∧
      blockA.freeFrames = 1 :: [3] ∧ 1 < blockA.cfg.space.frameCount ∧ ptRead blockA.pt x.1 = x.2 := by decide

theorem witness_HandleFaultEvictsTheOldestPage :
    ∀ x ∈ [(3, none), (1, some ⟨false, 1, 0b01⟩)],
      staleB.fatal = false ∧ x.1 < staleB.cfg.space.virtualPageCount ∧ x.1 ∉ staleB.resident.map Prod.fst ∧
      staleB.freeFrames = [] ∧ staleB.resident = (0, 0) :: [(2, 1)] ∧ ptRead staleB.pt 0 = some ⟨true, 0, 0b10⟩ ∧
      0 < staleB.cfg.space.frameCount ∧ ptRead staleB.pt x.1 = x.2 := by decide

/-- The first two clauses are VF1 and VF2; then a free frame, and a victim's frame, that does not exist. -/
theorem witness_HandleFaultImpossiblePathsPanic :
    (∀ s ∈ [brokenB, brokenB.withResident [(1, 0)], brokenB.withFreeFrames [2],
        (brokenB.withResident [(1, 2)]).withPt [(1, ⟨true, 2, 0b10⟩)]],
      s.fatal = false ∧ 3 < s.cfg.space.virtualPageCount ∧ 3 ∉ s.resident.map Prod.fst) ∧
    (brokenB.freeFrames = [] ∧ brokenB.resident = []) ∧
    (brokenB.freeFrames = [] ∧ (brokenB.withResident [(1, 0)]).resident = (1, 0) :: [] ∧ ptRead brokenB.pt 1 = none) ∧
    ((brokenB.withFreeFrames [2]).freeFrames = 2 :: [] ∧ brokenB.cfg.space.frameCount ≤ 2) ∧
    (brokenB.freeFrames = [] ∧ (brokenB.withResident [(1, 2)]).resident = (1, 2) :: [] ∧
      ptRead (brokenB.withPt [(1, ⟨true, 2, 0b10⟩)]).pt 1 = some ⟨true, 2, 0b10⟩ ∧
      brokenB.cfg.space.frameCount ≤ 2) := by decide

theorem witness_FaultHandlingWritesOnlyThePageAndTheVictim :
    (∃ t, exec (.handleFault (2 : Nat)) fullB = .next t) ∧
    (∃ t, exec (.resolve 0x2F) fullB = .next t) ∧ (0x2F : Int).toNat / 2 ^ fullB.cfg.space.offsetBits = 2 ∧
    (0 ≠ 2 ∧ (fullB.freeFrames = [] → fullB.resident.head?.map Prod.fst ≠ some 0)) :=
  ⟨⟨_, rfl⟩, ⟨_, rfl⟩, by decide, by decide⟩

theorem witness_ResolveHitAnswersAndTouches :
    (∀ s ∈ [blockA, strayA], s.fatal = false ∧ 0x3FFF < 2 ^ s.cfg.space.virtualAddressBits ∧
      ptRead s.pt (0x3FFF / 2 ^ s.cfg.space.offsetBits) = some ⟨true, 2, 0b1010110⟩ ∧ 2 < s.cfg.space.frameCount) ∧
    0x3FFF / 2 ^ strayA.cfg.space.offsetBits ∉ strayA.resident.map Prod.fst ∧
    (blockA.resident = [(0, 0)] ++ (0x3FFF / 2 ^ blockA.cfg.space.offsetBits, 2) :: [] ∧
      0x3FFF / 2 ^ blockA.cfg.space.offsetBits ∉ [(0, 0)].map Prod.fst) ∧ blockA.Good := by decide

theorem witness_ResolveErrorsPassThrough :
    blockA.fatal = false ∧
    (∀ va ∈ [(-1 : Int), 32768, 0x6000], ∃ st ∈ [Status.addressOutOfRange, .invalidConfiguration],
      (after (exec (.translate va) blockA)).map (fun r => r.resp.status) = some st) ∧
    (∀ va ∈ [(-1 : Int), 32768], va < 0 ∨ va > 2 ^ blockA.cfg.space.virtualAddressBits - 1) := by decide

/-- The states the invariants are witnessed by: after reset, with free frames, and full. -/
theorem witness_good : State.reset.Good ∧ blockA.Good ∧ fullB.Good ∧ staleB.Good ∧ fullD.Good :=
  ⟨by decide, by decide, by decide, by decide, by decide⟩

theorem witness_ResolveFaultLoadsThePageAndAnswers :
    (blockA.Good ∧ 0x5000 < 2 ^ blockA.cfg.space.virtualAddressBits ∧
      ∀ e, ptRead blockA.pt (0x5000 / 2 ^ blockA.cfg.space.offsetBits) = some e → e.present = false) ∧
    (fullB.Good ∧ 0x3F < 2 ^ fullB.cfg.space.virtualAddressBits ∧
      ∀ e, ptRead fullB.pt (0x3F / 2 ^ fullB.cfg.space.offsetBits) = some e → e.present = false) := by
  refine ⟨⟨by decide, by decide, fun e h => ?_⟩, ⟨by decide, by decide, fun e h => ?_⟩⟩
  · obtain rfl : (⟨false, 3, 0b10011⟩ : Entry) = e := Option.some.inj h
    rfl
  · have h : (none : Option Entry) = some e := h
    cases h

/-- The four states of the HANDLE_FAULT witness, and an address of VPN 3, which has no entry there and is not resident (VF6 is the
first of them). -/
theorem witness_ResolvePanicsOnTheImpossiblePaths :
    (∀ s ∈ [brokenB, brokenB.withResident [(1, 0)], brokenB.withFreeFrames [2],
        (brokenB.withResident [(1, 2)]).withPt [(1, ⟨true, 2, 0b10⟩)]],
      s.fatal = false ∧ 0x3F < 2 ^ s.cfg.space.virtualAddressBits ∧ 0x3F / 2 ^ s.cfg.space.offsetBits = 3 ∧
      ptRead s.pt 3 = none ∧ 3 ∉ s.resident.map Prod.fst) ∧
    (brokenB.freeFrames = [] ∧ brokenB.resident = []) ∧
    (brokenB.freeFrames = [] ∧ (brokenB.withResident [(1, 0)]).resident = (1, 0) :: [] ∧ ptRead brokenB.pt 1 = none) ∧
    ((brokenB.withFreeFrames [2]).freeFrames = 2 :: [] ∧ brokenB.cfg.space.frameCount ≤ 2) ∧
    (brokenB.freeFrames = [] ∧ (brokenB.withResident [(1, 2)]).resident = (1, 2) :: [] ∧
      ptRead (brokenB.withPt [(1, ⟨true, 2, 0b10⟩)]).pt 1 = some ⟨true, 2, 0b10⟩ ∧
      brokenB.cfg.space.frameCount ≤ 2) := by decide

theorem witness_ResolveNeverAnswersPageFault :
    blockA.fatal = false ∧ (∃ t, exec (.resolve 0x5000) blockA = .next t) ∧
    brokenB.fatal = false ∧ (∃ t, exec (.resolve 0) brokenB = .next t ∧ t.resp.status = .fatal) :=
  ⟨by decide, ⟨_, rfl⟩, by decide, ⟨_, rfl, rfl⟩⟩

theorem witness_ResolveNeverPanicsFromAGoodState : fullB.Good := by decide

theorem witness_ResolveEqualsThePrimitiveCommands :
    blockA.Good ∧ (∃ r, exec (.translate 0x3ABC) blockA = .next r ∧ r.resp.status = .ok) ∧
    (∃ r, exec (.translate 0x5123) blockA = .next r ∧ r.resp.status = .pageFault) ∧
    (∃ r, exec (.translate 0x6000) blockA = .next r ∧ r.resp.status ≠ .ok ∧ r.resp.status ≠ .pageFault) :=
  ⟨by decide, ⟨_, rfl, rfl⟩, ⟨_, rfl, rfl⟩, ⟨_, rfl, by decide, by decide⟩⟩

theorem witness_SequencerPhasesGiveTheOneStepResolve : fullB.fatal = false := by decide

theorem witness_FatalIsStickyUntilReset :
    (fatalA.fatal = true ∧ (fatalA.withHost [.command (record 9 0 0 0)]).host = .command (record 9 0 0 0) :: []) ∧
    (∃ t, (fatalA.withHost [.reset imageA]).fatal = true ∧ step (fatalA.withHost [.reset imageA]) = .next t ∧
      t.fatal = false) := by
  refine ⟨by decide, State.launch fatalA.cfg imageA fatalA.draws [], rfl, ?_, rfl⟩
  exact if_pos (c := launchAdmitted fatalA.cfg imageA) (e := .refused .launchRefused) (by decide)

theorem witness_EveryCommandAnswersFatalAfterAPanic : fatalA.fatal = true := by decide

theorem witness_SignalsChangeNoState :
    ∃ t, exec (.translate (-1)) blockA = .next t ∧ t.resp.status ≠ .ok ∧ t.resp.status ≠ .fatal :=
  ⟨_, rfl, by decide, by decide⟩

theorem witness_EachStatusHasItsNumberAndItsCommands :
    (∃ t, exec (.translate 0x7FFF) blockA = .next t ∧ t.resp.status = .pageFault) ∧
    (∀ i ∈ [Instr.translate 32768, .resolve (-1), .handleFault 8],
      (after (exec i blockA)).map (fun t => t.resp.status) = some .addressOutOfRange) ∧
    (∀ i ∈ [Instr.translate 0x6000, .resolve 0x6000, .setFrame 0 4],
      (after (exec i blockA)).map (fun t => t.resp.status) = some .invalidConfiguration) ∧
    (∃ t, exec (.touch 0) fatalA = .next t ∧ t.resp.status = .fatal) :=
  ⟨⟨_, rfl, rfl⟩, by decide, by decide, ⟨_, rfl, rfl⟩⟩

theorem witness_EveryAdmittedLaunchIsGood : Params.default.ok ∧ launchAdmitted Params.default imageA := by decide

theorem witness_EveryStepKeepsTheInvariants :
    (blockA.withFetchWord 40 0x400000007).Inv ∧ (∃ t, step (blockA.withFetchWord 40 0x400000007) = .next t) ∧
    (blockA.withFetchWord 40 0x400000007).fatal = false :=
  ⟨by decide, ⟨_, rfl⟩, by decide⟩

theorem witness_TheConfigurationNeverChanges : ∃ t, step (fullB.withFetchWord 40 0x200000020) = .next t := ⟨_, rfl⟩

theorem witness_NoCommandFreesAFrame :
    (∃ t, exec (.handleFault 7) blockA = .next t) ∧
    (∃ t, exec (.handleFault 2) fullB = .next t ∧ (1, 1) ∈ fullB.resident ∧ (1, 1) ∉ t.resident) :=
  ⟨⟨_, rfl⟩, ⟨_, rfl, by decide, by decide⟩⟩

theorem witness_NoEvictionWhileAFrameIsFree :
    (∃ t, exec (.handleFault 7) blockA = .next t) ∧ blockA.freeFrames ≠ [] ∧
    ptRead blockA.pt 3 = some ⟨true, 2, 0b1010110⟩ ∧ 3 ∈ blockA.resident.map Prod.fst :=
  ⟨⟨_, rfl⟩, by decide, by decide, by decide⟩

theorem witness_OnlyTheOldestPageIsEvicted :
    ∃ t, exec (.handleFault 2) fullB = .next t ∧ 1 ∈ fullB.resident.map Prod.fst ∧ 1 ∉ t.resident.map Prod.fst :=
  ⟨_, rfl, by decide, by decide⟩

/-- Pages of 4096 bytes, with as many frames as pages: one page loaded, and a load of the other. -/
def roomy : State := block 12 1 1 [(0, ⟨true, 0, 0b10⟩)] [0] [1]

theorem witness_EnoughFramesMeansNoEviction :
    roomy.Inv ∧ roomy.cfg.space.virtualPageCount ≤ roomy.cfg.space.frameCount ∧
    (1 < roomy.cfg.space.virtualPageCount ∧ 1 ∉ roomy.resident.map Prod.fst) ∧
    (∃ t, exec (.handleFault 1) roomy = .next t) ∧ (0, 0) ∈ roomy.resident ∧
    ptRead roomy.pt 0 = some ⟨true, 0, 0b10⟩ :=
  ⟨by decide, by decide, by decide, ⟨_, rfl⟩, by decide, by decide⟩

theorem witness_PhysicalAddressesStayValidUntilEviction :
    fullB.Good ∧ (∃ t, exec (.handleFault 2) fullB = .next t) ∧
    (fullB.Maps 0 0 ∧ 0 < fullB.cfg.space.frameCount) ∧ (fullB.Maps 1 1 ∧ 1 < fullB.cfg.space.frameCount) :=
  ⟨by decide, ⟨_, rfl⟩, ⟨⟨_, rfl, rfl, rfl⟩, by decide⟩, ⟨⟨_, rfl, rfl, rfl⟩, by decide⟩⟩

/-- The conclusion is `v = w`, so only equal pages meet the hypotheses. -/
theorem witness_NoTwoPagesShareAFrame :
    fullB.Inv ∧ fullB.Maps 1 1 ∧ fullB.Maps 1 1 ∧ 1 < fullB.cfg.space.frameCount :=
  ⟨by decide, ⟨_, rfl, rfl, rfl⟩, ⟨_, rfl, rfl, rfl⟩, by decide⟩

theorem witness_OneRecencyOrder : fullB.Good ∧ ∃ t, exec (.handleFault 2) fullB = .next t := ⟨by decide, ⟨_, rfl⟩⟩

theorem witness_ResponsesFitTheirFields :
    blockA.Inv ∧
    ((Instr.translate 0x3FFF).wellFormed blockA.cfg.widths ∧ ∃ t, exec (.translate 0x3FFF) blockA = .next t) ∧
    ((Instr.touch (-1)).wellFormed blockA.cfg.widths ∧ ∃ t, exec (.touch (-1)) blockA = .next t) ∧
    ((Instr.setFrame 255 3).wellFormed blockA.cfg.widths ∧ ∃ t, exec (.setFrame 255 3) blockA = .next t) ∧
    (∃ t, illegalCommand blockA = .next t) :=
  ⟨by decide, ⟨by decide, _, rfl⟩, ⟨by decide, _, rfl⟩, ⟨by decide, _, rfl⟩, ⟨_, rfl⟩⟩

/-- R78: a field of width 0 carries the value 0 (CFG-C, the offset after TOUCH). -/
theorem test_field_of_width_zero (t : State) (h : exec (.touch 0) (block 0 0 1 [] [] [0]) = .next t) : t.resp.offset = 0 := by
  have h : (block 0 0 1 [] [] [0]).respondOk id = t ∨ ((block 0 0 1 [] [] [0]).touch 0).respondOk id = t := .inr (next_inj.1 h)
  rcases h with rfl | rfl <;> exact Nat.mod_one _

theorem witness_EvictThenReloadKeepsTheControlBits :
    fullB.Good ∧ ptRead fullB.pt 1 = some ⟨true, 1, 0b11⟩ ∧ 1 ∈ fullB.resident.map Prod.fst ∧
    ∃ t w, exec (.handleFault (2 : Nat)) fullB = .next t ∧ 1 ∉ t.resident.map Prod.fst ∧
      exec (.handleFault (1 : Nat)) t = .next w :=
  ⟨by decide, by decide, by decide, _, _, rfl, by decide, rfl⟩

theorem three_is_no_power (k : Nat) : (3 : Int) ≠ 2 ^ k := by
  cases k with
  | zero => decide
  | succ k => rw [pow_succ]; omega

theorem witness_CreateCountsAcceptsExactlyPowersOfTwo :
    (∃ c, createCounts 1 1 1 = .ok c) ∧ ((∃ k : Nat, (1 : Int) = 2 ^ k) ∧ ¬ ∃ k : Nat, (3 : Int) = 2 ^ k) :=
  ⟨⟨_, rfl⟩, ⟨0, rfl⟩, fun ⟨k, h⟩ => three_is_no_power k h⟩

theorem witness_CreateMemDividesByThePageSize :
    (¬ ∃ k : Nat, (3 : Int) = 2 ^ k) ∧
    ((∃ k : Nat, (2 : Int) = 2 ^ k) ∧ ¬ (2 : Int) ∣ 3) ∧ ((∃ k : Nat, (2 : Int) = 2 ^ k) ∧ (2 : Int) ∣ 4 ∧ ¬ (2 : Int) ∣ 5) ∧
    ((∃ k : Nat, (1 : Int) = 2 ^ k) ∧ (4 : Int) = 4 * 1 ∧ (8 : Int) = 8 * 1) :=
  ⟨fun ⟨k, h⟩ => three_is_no_power k h, ⟨⟨1, rfl⟩, by decide⟩, ⟨⟨1, rfl⟩, by decide, by decide⟩,
    ⟨0, rfl⟩, rfl, rfl⟩

theorem witness_CreateTakesExactlyOnePair :
    (∃ fc vc pm vm : Option Int, fc = some 4 ∧ vc = some 8 ∧ pm = none ∧ vm = none) ∧
    (∃ fc vc pm vm : Option Int, fc = none ∧ vc = none ∧ pm = some 16384 ∧ vm = some 32768) ∧
    (∃ fc vc pm vm : Option Int, fc = some 4 ∧ vc = none ∧ pm = none ∧ vm = none ∧
      ¬ (fc.isSome ∧ vc.isSome ∧ pm = none ∧ vm = none) ∧ ¬ (fc = none ∧ vc = none ∧ pm.isSome ∧ vm.isSome)) ∧
    (∃ a : CreateArgs, a.pageSize = .text "4KiB".toList ∧ a.physicalMem = some (.text "4KiB".toList) ∧
      a.virtualMem = some (.text "4KiB".toList) ∧ parseSize "4KiB".toList = .ok 4096) ∧
    (∃ a : CreateArgs, a.pageSize = .text "4KB".toList ∧ parseSize "4KB".toList = .signal .invalidSize) ∧
    (∃ a : CreateArgs, (∃ n, a.pageSize = .bytes n) ∧ a.physicalMem = some (.text "4 KiB".toList) ∧
      parseSize "4 KiB".toList = .sizeTextRefused) ∧
    (∃ a : CreateArgs, (∃ n, a.pageSize = .bytes n) ∧ (∃ n, a.physicalMem = some (.bytes n)) ∧
      a.virtualMem = some (.text "4KB".toList)) :=
  ⟨⟨some 4, some 8, none, none, by decide⟩, ⟨none, none, some 16384, some 32768, by decide⟩,
    ⟨some 4, none, none, none, by decide⟩,
    ⟨⟨.text "4KiB".toList, none, none, some (.text "4KiB".toList), some (.text "4KiB".toList)⟩, rfl, rfl, rfl, by decide⟩,
    ⟨⟨.text "4KB".toList, none, none, none, none⟩, rfl, by decide⟩,
    ⟨⟨.bytes 4096, none, none, some (.text "4 KiB".toList), none⟩, ⟨_, rfl⟩, rfl, by decide⟩,
    ⟨⟨.bytes 4096, none, none, some (.bytes 16384), some (.text "4KB".toList)⟩, ⟨_, rfl⟩, ⟨_, rfl⟩, rfl⟩⟩

/-- The four units in mixed letter case, a text of a wrong shape, a size but for white space, and texts with white space that are
no size (R102's own `4 KB`, a fractional number of bytes, white space inside the number). -/
theorem witness_SizeTextsParseByTheUnitTable :
    (['4', '0'] ≠ [] ∧ ∀ c ∈ ['4', '0'], c.isDigit = true) ∧
    (['B'].map Char.toLower = ['b'] ∧ ['K', 'i', 'b'].map Char.toLower = ['k', 'i', 'b'] ∧
      ['m', 'I', 'B'].map Char.toLower = ['m', 'i', 'b'] ∧ ['G', 'I', 'B'].map Char.toLower = ['g', 'i', 'b']) ∧
    ((∀ c ∈ ['4', 'K', 'B'], c.isWhitespace = false) ∧ ∀ ds fs e, ¬ IsSizeText ['4', 'K', 'B'] ds fs e) ∧
    ((∃ c ∈ "1.5 KiB\n".toList, c.isWhitespace = true) ∧ IsSizeButForSpace "1.5 KiB\n".toList) ∧
    (∀ text ∈ ["4 KB".toList, "1.5 B".toList, "1 2KiB".toList],
      (∃ c ∈ text, c.isWhitespace = true) ∧ ¬ IsSizeButForSpace text) := by
  refine ⟨⟨by decide, by simp⟩, by decide, ⟨by simp, fun ds fs e h => ?_⟩,
    ⟨⟨' ', by simp, by decide⟩, [], ['1', '.', '5'], [' '], ['K', 'i', 'B'], ['\n'], ['1'], ['5'], 10, 1536, by simp, by simp,
      ⟨by decide, by simp, ['K', 'i', 'B'], ⟨("kib", 10), by simp, by decide, rfl⟩, rfl⟩, rfl, by decide⟩, fun text ht => ?_⟩
  · exact absurd (sizeShape_of_isSizeText h) (by rw [show sizeShape ['4', 'K', 'B'] = none by decide]; simp)
  · simp only [List.mem_cons, List.not_mem_nil, or_false] at ht
    have none_of : (sizeShape text).bind SizeShape.bytes = none := by rcases ht with rfl | rfl | rfl <;> decide
    refine ⟨⟨' ', by rcases ht with rfl | rfl | rfl <;> decide, by decide⟩, fun h => ?_⟩
    obtain ⟨z, n, hz, hn⟩ := isSizeButForSpace_iff.1 h
    simp [hz, hn] at none_of

theorem witness_FractionalSizeTextsParseExactly :
    (IsSizeText ['1', '.', '5', 'k', 'i', 'B'] ['1'] ['5'] 10 ∧
      1536 * 10 ^ ['5'].length = decimalValue (['1'] ++ ['5']) * 2 ^ 10) ∧
    (IsSizeText ['1', '.', '5', 'B'] ['1'] ['5'] 0 ∧
      ∀ n, n * 10 ^ ['5'].length ≠ decimalValue (['1'] ++ ['5']) * 2 ^ 0) := by
  refine ⟨⟨⟨by decide, by simp, ['k', 'i', 'B'], ⟨("kib", 10), by simp, by decide, rfl⟩, rfl⟩, by decide⟩,
    ⟨by decide, by simp, ['B'], ⟨("b", 0), by simp, by decide, rfl⟩, rfl⟩, fun n h => ?_⟩
  have h : n * 10 = 15 := h
  omega

theorem witness_BootGivesAGoodBlock :
    (∃ s, boot ⟨.bytes 4096, some 4, some 8, none, none⟩ .table imageA = .ok s) ∧
    create ⟨.bytes 4096, some 3, some 8, none, none⟩ = .signal (.invalidConfiguration .frameCount (some 3)) ∧
    create ⟨.bytes 4096, some 4, some 8, none, none⟩ = .ok Params.default.space ∧
    create ⟨.text "4 KiB".toList, some 4, some 8, none, none⟩ = .sizeTextRefused ∧
    ¬ (Params.default.ok ∧ launchAdmitted Params.default { imageA with freeOrder := [1] }) ∧
    ¬ Params.ok { space := Params.default.space, widths := { aiw := 16, rw := 7, fw := 3 } } := by
  refine ⟨⟨blockA, ?_⟩, by decide, by decide, by decide, by decide, by decide⟩
  have hc : create ⟨.bytes 4096, some 4, some 8, none, none⟩ = .ok Params.default.space := by decide
  rw [boot, hc]
  exact if_pos (c := Params.default.ok ∧ launchAdmitted Params.default imageA) (e := .launchRefused) (by decide)

end Sys2Proof.Tests
end

section
/-! PROOFS. The block after a reset (70_reset_and_hazards.md R241 to R245): what the loader owes gives the invariants. -/

namespace Sys2Proof.Machine

/-- With distinct keys the pairs of a list are exactly what a lookup finds. -/
theorem findKey_eq_some {α : Type} {l : List (Nat × α)} (hl : (l.map Prod.fst).Nodup) {k : Nat} {a : α} :
    findKey l k = some a ↔ (k, a) ∈ l :=
  ⟨findKey_mem, findKey_of_mem hl⟩

/-- Looking up the keys of a list, each once and in any order, gives back its pairs. -/
theorem filterMap_findKey_perm {α : Type} {l : List (Nat × α)} (hl : (l.map Prod.fst).Nodup) {order : List Nat}
    (ho : order.Perm (l.map Prod.fst)) :
    (order.filterMap fun v => (findKey l v).map fun a => (v, a)).Perm l := by
  have hself : (l.map Prod.fst).filterMap (fun v => (findKey l v).map fun a => (v, a)) = l := by
    rw [List.filterMap_map]
    refine (List.filterMap_congr (g := some) fun x hx => ?_).trans List.filterMap_some
    simp [findKey_of_mem hl (a := x.2) hx]
  exact (ho.filterMap _).trans (.of_eq hself)

theorem holdsFrame_iff {c : AddressSpaceConfig} {e : Entry} :
    holdsFrame c e = true ↔ e.present = true ∧ e.frame < c.frameCount := by
  simp [holdsFrame]

theorem mem_heldPages {c : AddressSpaceConfig} {pt : PageTable} {v f : Nat} :
    (v, f) ∈ heldPages c pt ↔ ∃ e, (v, e) ∈ pt ∧ holdsFrame c e = true ∧ e.frame = f := by
  simp only [heldPages, List.mem_map, List.mem_filter, Prod.mk.injEq]
  constructor
  · rintro ⟨⟨w, e⟩, ⟨hmem, hh⟩, rfl, rfl⟩
    exact ⟨e, hmem, hh, rfl⟩
  · rintro ⟨e, hmem, hh, rfl⟩
    exact ⟨(v, e), ⟨hmem, hh⟩, rfl, rfl⟩

theorem heldPages_keys_nodup {c : AddressSpaceConfig} {pt : PageTable} (h : keysRising pt) :
    ((heldPages c pt).map Prod.fst).Nodup := by
  rw [heldPages, List.map_map]
  exact (nodup_keys_of_keysRising h).sublist (List.filter_sublist.map Prod.fst)

/-- The held pages, read as a map, are the entries of the table that hold a frame (R31, R243). -/
theorem findKey_heldPages {c : AddressSpaceConfig} {pt : PageTable} (h : keysRising pt) (v : Nat) :
    findKey (heldPages c pt) v = ((ptRead pt v).filter (holdsFrame c)).map Entry.frame := by
  ext f
  rw [findKey_eq_some (heldPages_keys_nodup h), mem_heldPages]
  simp only [Option.map_eq_some_iff, Option.filter_eq_some_iff, ptRead,
    findKey_eq_some (nodup_keys_of_keysRising h), and_assoc]

theorem heldPages_frame_lt {c : AddressSpaceConfig} {pt : PageTable} {f : Nat}
    (h : f ∈ (heldPages c pt).map Prod.snd) : f < c.frameCount := by
  obtain ⟨⟨v, f⟩, hx, rfl⟩ := List.mem_map.1 h
  obtain ⟨e, -, hh, rfl⟩ := mem_heldPages.1 hx
  exact (holdsFrame_iff.1 hh).2

/-- The frames of the held pages and the unused frames are the frame numbers, each once (R244). -/
theorem heldFrames_append_unused_perm {c : AddressSpaceConfig} {pt : PageTable}
    (h : ((heldPages c pt).map Prod.snd).Nodup) :
    ((heldPages c pt).map Prod.snd ++ unusedFrames c pt).Perm (List.range c.frameCount) := by
  have hused : ((heldPages c pt).map Prod.snd).Perm
      ((List.range c.frameCount).filter fun f => ((heldPages c pt).map Prod.snd).contains f) := by
    refine (List.perm_ext_iff_of_nodup h (List.nodup_range.filter _)).2 fun f => ?_
    rw [List.mem_filter, List.mem_range, List.contains_iff_mem]
    exact ⟨fun hf => ⟨heldPages_frame_lt hf, hf⟩, And.right⟩
  exact (hused.append_right _).trans (List.filter_append_perm _ _)

theorem buildResident_perm {p : Params} {img : ResetImage} (h : launchAdmitted p img) :
    (buildResident p.space img).Perm (heldPages p.space img.ptInit) := by
  obtain ⟨hrise, -, -, -, -, hinit, -⟩ := h
  exact filterMap_findKey_perm (heldPages_keys_nodup hrise) hinit

/-- INV-L2 counts what INV-L1 lists (R30). -/
theorem invL2_of_invL1 {s : State} (h : s.InvL1) : s.InvL2 := by
  simpa using h.length_eq

/-- A reset with an admitted image meets the invariants (R245). -/
theorem launch_inv {p : Params} {img : ResetImage} (hok : p.ok) (h : launchAdmitted p img) (d : Nat)
    (moves : List HostMove) : (State.launch p img d moves).Inv := by
  have hres := buildResident_perm h
  obtain ⟨hrise, hkeys, hagree, hfit, hframes, -, hfree⟩ := h
  have hnd : ((buildResident p.space img).map Prod.fst).Nodup :=
    (hres.map _).nodup_iff.2 (heldPages_keys_nodup hrise)
  have hlt : ∀ x ∈ buildResident p.space img, x.1 < p.space.virtualPageCount := fun x hx => by
    obtain ⟨e, he, -⟩ := mem_heldPages.1 (hres.mem_iff.1 hx)
    exact hkeys _ he
  have hL1 : (State.launch p img d moves).InvL1 :=
    ((hres.map Prod.snd).append hfree).trans (heldFrames_append_unused_perm hframes)
  have hK : (State.launch p img d moves).InvK := fun v _ =>
    (findKey_perm hres hnd v).trans (findKey_heldPages hrise v)
  exact ⟨hok, ⟨hrise, hkeys⟩, hagree, hfit, ⟨hnd, hlt⟩, hL1, invL2_of_invL1 hL1, hK⟩

end Sys2Proof.Machine
end

section
/-! PROOFS. Every command and every step keeps the invariants (43_lru.md R172, 44_resolve.md R197,
70_reset_and_hazards.md R245). -/

open Sys2Proof Sys2Proof.Machine

namespace Sys2Proof.Machine

/-- The invariants speak of the block alone, whatever the response port and the host hold. -/
theorem SameBlock.inv {s t : State} (h : SameBlock s t) (hs : s.Inv) : t.Inv := by
  cases t
  obtain ⟨rfl, rfl, rfl, rfl, rfl⟩ := h
  exact hs

theorem SameBlock.fatal_eq {s t : State} (h : SameBlock s t) : t.fatal = s.fatal := by
  obtain ⟨-, -, -, -, hfatal⟩ := h
  exact hfatal

/-- Under the invariants the handler never panics (R170). -/
theorem handleFault_ne_panicked {s : State} (h : s.Inv) {v : Nat} (hv : v < s.cfg.space.virtualPageCount) (u : State) :
    handleFault s v ≠ .panicked u := by
  intro hu
  cases hr : findKey s.resident v with
  | some f => rw [handleFault, hr] at hu; cases hu
  | none =>
    obtain ⟨f, t, -, -, hload, -⟩ := handleFault_good h hv hr
    rw [hload] at hu
    cases hu

/-- A load gives the invariants back (R172). -/
theorem inv_of_handleFault_loaded {s u : State} (h : s.Inv) {v f : Nat} (hv : v < s.cfg.space.virtualPageCount)
    (hu : handleFault s v = .loaded f u) : u.Inv := by
  obtain ⟨-, -, -, -, hr, -⟩ := handleFault_loaded hu
  obtain ⟨g, t, -, -, hload, hinv⟩ := handleFault_good h hv hr
  rw [hload] at hu
  cases hu
  exact hinv

/-- A command keeps the invariants and never newly sets the flag (R172, R197). -/
theorem exec_inv {i : Instr} {s t : State} (h : s.Inv) (hx : exec i s = .next t) : t.Inv ∧ t.fatal = s.fatal := by
  cases exec_effect hx with
  | answers ha _ =>
    obtain ⟨hsame, -⟩ := ha
    exact ⟨hsame.inv h, hsame.fatal_eq⟩
  | touches v moved same _ _ _ =>
    obtain ⟨hc, hp, hf, hfatal, -⟩ := same
    have hsame : SameBlock (s.withResident (moveToBack s.resident v)) t := ⟨hc, hp, moved, hf, hfatal⟩
    exact ⟨hsame.inv (inv_of_resident_perm h (moveToBack_perm _ _)), hfatal⟩
  | loads v f u handled same _ _ _ slot _ =>
    obtain ⟨-, -, hfatal, -⟩ := handleFault_loaded handled
    exact ⟨same.inv (inv_of_handleFault_loaded h slot handled), same.fatal_eq.trans hfatal⟩
  | panics v u handled _ _ slot _ => exact absurd handled (handleFault_ne_panicked h slot u)

end Sys2Proof.Machine

/-- Settles O44: by the inversion of `step`, from `exec_inv` for a command and `launch_inv` for a reset. -/
theorem everyStepKeepsTheInvariants : Obligations.EveryStepKeepsTheInvariants := by
  intro s t h hstep
  rcases step_cases hstep with ⟨-, rfl⟩ | ⟨c, rest, i, -, -, hx⟩ | ⟨c, rest, r, -, -, hx⟩ | ⟨img, rest, -, ha, rfl⟩
  · exact ⟨h, id⟩
  · obtain ⟨hinv, hfatal⟩ := exec_inv (s := s.withHost rest) h hx
    exact ⟨hinv, hfatal.trans⟩
  · obtain ⟨⟨hsame, -⟩, -⟩ := illegalCommand_next hx
    exact ⟨hsame.inv (s := s.withHost rest) h, hsame.fatal_eq.trans⟩
  · obtain ⟨hok, -⟩ := h
    exact ⟨launch_inv hok ha _ _, fun _ => rfl⟩

end

section
/-! PROOFS. What the invariants say of frames (10_state.md R30, R31; 40_config.md R108). -/

open Sys2Proof Sys2Proof.Machine

namespace Sys2Proof.Machine

/-- A mapped page is resident, with its frame (R31 INV-K). -/
theorem State.Maps.mem_resident {s : State} {v f : Nat} (hm : s.Maps v f) (h : s.Inv)
    (hf : f < s.cfg.space.frameCount) : (v, f) ∈ s.resident := by
  obtain ⟨-, ⟨-, hkeys⟩, -, -, -, -, -, hK⟩ := h
  obtain ⟨e, he, hp, rfl⟩ := hm
  refine findKey_mem ((hK v (hkeys _ (mem_of_ptRead he))).trans ?_)
  simp [he, holdsFrame_iff.2 ⟨hp, hf⟩]

/-- No frame is held twice in `resident` (R30 INV-L1). -/
theorem resident_frames_nodup {s : State} (h : s.Inv) : (s.resident.map Prod.snd).Nodup := by
  obtain ⟨-, -, -, -, -, hL1, -, -⟩ := h
  exact (List.nodup_append.1 (hL1.nodup_iff.2 List.nodup_range)).1

/-- While a page is not resident fewer pages are resident than the block has. -/
theorem resident_length_lt {s : State} (h : s.ResidentOk) {v : Nat} (hv : v < s.cfg.space.virtualPageCount)
    (hr : v ∉ s.resident.map Prod.fst) : s.resident.length < s.cfg.space.virtualPageCount := by
  obtain ⟨hnd, hlt⟩ := h
  have hsub : v :: s.resident.map Prod.fst ⊆ List.range s.cfg.space.virtualPageCount := fun w hw => by
    rcases List.mem_cons.1 hw with rfl | hw
    · exact List.mem_range.2 hv
    · obtain ⟨x, hx, rfl⟩ := List.mem_map.1 hw
      exact List.mem_range.2 (hlt x hx)
  simpa using (List.subperm_of_subset (List.nodup_cons.2 ⟨hr, hnd⟩) hsub).length_le

/-- With at least as many frames as pages a page that is not resident finds a free frame (R108). -/
theorem freeFrames_ne_nil_of_enough {s : State} (h : s.Inv)
    (henough : s.cfg.space.virtualPageCount ≤ s.cfg.space.frameCount) {v : Nat}
    (hv : v < s.cfg.space.virtualPageCount) (hr : v ∉ s.resident.map Prod.fst) : s.freeFrames ≠ [] := by
  obtain ⟨-, -, -, -, hres, -, hL2, -⟩ := h
  intro hnil
  have hlen := resident_length_lt hres hv hr
  rw [State.InvL2, hnil, List.length_nil] at hL2
  omega

/-- No page has been evicted on the way from `s` to `t`: every pair of `resident` is still in it, and no entry has lost
its present bit. -/
def KeepsPages (s t : State) : Prop :=
  (∀ x ∈ s.resident, x ∈ t.resident) ∧
  ∀ v e, ptRead s.pt v = some e → e.present = true → ∃ e', ptRead t.pt v = some e' ∧ e'.present = true

theorem KeepsPages.of_perm {s t : State} (hr : t.resident.Perm s.resident) (hp : t.pt = s.pt) : KeepsPages s t :=
  ⟨fun _ hx => hr.mem_iff.2 hx, fun _ e he hpres => ⟨e, hp ▸ he, hpres⟩⟩

/-- A load that takes a free frame evicts no page (R165). -/
theorem keepsPages_of_handleFault_loaded {s u : State} {v f : Nat} (hu : handleFault s v = .loaded f u)
    (hfree : s.freeFrames ≠ []) : KeepsPages s u := by
  obtain ⟨-, -, -, -, -, hframe, ⟨d, hd, hpres, -⟩, -, hother⟩ := handleFault_loaded hu
  refine ⟨fun x hx => ?_, fun w e he hp => ?_⟩
  · rcases hframe with ⟨-, hres⟩ | ⟨hnil, -⟩
    · rw [hres]
      exact List.mem_append_left _ hx
    · exact absurd hnil hfree
  · by_cases hw : w = v
    · exact ⟨d, hw ▸ hd, hpres⟩
    · exact ⟨e, (hother w hw fun hnil => absurd hnil hfree).trans he, hp⟩

/-- With at least as many frames as pages no command evicts (R108). -/
theorem exec_keepsPages_of_enough {i : Instr} {s t : State} (h : s.Inv)
    (henough : s.cfg.space.virtualPageCount ≤ s.cfg.space.frameCount) (hx : exec i s = .next t) : KeepsPages s t := by
  cases exec_effect hx with
  | answers ha _ =>
    obtain ⟨⟨-, hp, hr, -⟩, -⟩ := ha
    exact .of_perm (.of_eq hr) hp
  | touches v moved same _ _ _ =>
    obtain ⟨-, hp, -⟩ := same
    exact .of_perm (moved ▸ moveToBack_perm _ _) hp
  | loads v f u handled same _ _ _ slot _ =>
    obtain ⟨-, -, -, -, habsent, -⟩ := handleFault_loaded handled
    obtain ⟨-, hp, hr, -⟩ := same
    rw [KeepsPages, hp, hr]
    exact keepsPages_of_handleFault_loaded handled
      (freeFrames_ne_nil_of_enough h henough slot (findKey_eq_none.1 habsent))
  | panics v u handled _ _ slot _ => exact absurd handled (handleFault_ne_panicked h slot u)

end Sys2Proof.Machine

/-- Settles O49: by counting, a page that is not resident leaves a frame free, so no load evicts. -/
theorem enoughFramesMeansNoEviction : Obligations.EnoughFramesMeansNoEviction := fun _ h henough =>
  ⟨fun _ hv hr => freeFrames_ne_nil_of_enough h henough hv hr, fun _ _ hx => exec_keepsPages_of_enough h henough hx⟩

/-- Settles O51: both pages are resident with the frame (INV-K), and `resident` holds a frame once (INV-L1). -/
theorem noTwoPagesShareAFrame : Obligations.NoTwoPagesShareAFrame := by
  intro s v w f h hv hw hf
  have hpair : (v, f) = (w, f) :=
    List.inj_on_of_nodup_map (resident_frames_nodup h) (hv.mem_resident h hf) (hw.mem_resident h hf) rfl
  exact congrArg Prod.fst hpair

end

section
/-! PROOFS. The sequencer phases of a RESOLVE (10_state.md R37) against the one-step command (44_resolve.md R190). -/

open Sys2Proof Sys2Proof.Machine

namespace Sys2Proof.Machine

/-- From phase `p` in state `s` the sequencer ends with outcome `o` after at most `k` phases. -/
def EndsWithin (k : Nat) (s : State) (p : Phase) (o : Host.Outcome State Fault Refusal) : Prop :=
  ∃ n ≤ k, runPhases n s p = some o

/-- One phase more. -/
theorem EndsWithin.of_goes {k : Nat} {s t : State} {p q : Phase} {o : Host.Outcome State Fault Refusal}
    (hstep : phaseStep s p = .goes q t) (h : EndsWithin k t q o) : EndsWithin (k + 1) s p o := by
  obtain ⟨n, hn, hrun⟩ := h
  exact ⟨n + 1, Nat.succ_le_succ hn, by rw [runPhases, hstep]; exact hrun⟩

theorem EndsWithin.of_refused {s : State} {p : Phase} {v : Nat} (hstep : phaseStep s p = .refused v) :
    EndsWithin 1 s p (.refused (.pageAlreadyResident v)) :=
  ⟨1, le_rfl, by rw [runPhases, hstep]⟩

theorem EndsWithin.mono {j k : Nat} (hjk : j ≤ k) {s : State} {p : Phase} {o : Host.Outcome State Fault Refusal}
    (h : EndsWithin j s p o) : EndsWithin k s p o := by
  obtain ⟨n, hn, hrun⟩ := h
  exact ⟨n, hn.trans hjk, hrun⟩

theorem endsWithin_respondOk (s : State) (r : TranslationResult) :
    EndsWithin 1 s (.respondOk r) (.next (s.respondOk r.define)) :=
  ⟨1, le_rfl, rfl⟩

theorem endsWithin_respondSignal (s : State) (st : Status) :
    EndsWithin 1 s (.respondSignal st) (.next (s.signal st)) :=
  ⟨1, le_rfl, rfl⟩

theorem endsWithin_panicking (s : State) : EndsWithin 2 s .panicking (.next s.panic) :=
  .of_goes rfl (endsWithin_respondSignal _ _)

theorem endsWithin_hit (s : State) (r : TranslationResult) :
    EndsWithin 3 s (.hit r) (.next ((s.touch r.vpn).respondOk r.define)) :=
  .of_goes rfl (.of_goes rfl (endsWithin_respondOk _ _))

theorem endsWithin_error (s : State) (st : Status) : EndsWithin 2 s (.error st) (.next (s.signal st)) :=
  .of_goes rfl (endsWithin_respondSignal _ _)

/-- RETRY is the return from the page fault (R195, R196). -/
theorem endsWithin_retry (s : State) (va : Int) : EndsWithin 3 s (.retry va) (.next (returnFromPageFault s va)) := by
  rw [returnFromPageFault]
  cases htr : translateVa s.cfg.space s.pt va with
  | ok r => exact .mono (by decide) (.of_goes (by rw [phaseStep, htr]) (endsWithin_respondOk s r))
  | _ => exact .of_goes (by rw [phaseStep, htr]) (endsWithin_panicking s)

/-- FAULT of a page that is not resident goes on to ACQUIRE, with the stale raw word already read (R163). -/
theorem phaseStep_fault_absent {s : State} {v : Nat} (h : findKey s.resident v = none) (va : Int) :
    phaseStep s (.fault va v) = .goes (.acquire va v (loadBase (ptRead s.pt v))) s := by
  rw [phaseStep, h]; rfl

/-- UPDATE with a frame that does not fit panics (R169). -/
theorem phaseStep_update_overflow {s : State} {f : Nat} (h : s.cfg.space.frameCount ≤ f) (va : Int) (v base : Nat) :
    phaseStep s (.update va v base f) = .goes .panicking s :=
  if_pos (decide_eq_true h)

theorem phaseStep_update_fits {s : State} {f : Nat} (h : f < s.cfg.space.frameCount) (va : Int) (v base : Nat) :
    phaseStep s (.update va v base f) = .goes (.recency va v f) (s.loadPage v base f) :=
  if_neg (by simp [frameOverflows_eq_false.2 h])

/-- FAULT and the phases after it are the taking of the page fault (R194, R219), one case per end of the handler. -/
theorem endsWithin_fault (s : State) (va : Int) (v : Nat) : EndsWithin 7 s (.fault va v) (takePageFault s va v) := by
  rcases handleFault_cases s v with ⟨hres, hend⟩ | ⟨t, habsent, hacq, hend⟩ | ⟨f, t, habsent, hacq, hover, hend⟩ |
      ⟨f, t, habsent, hacq, hfits, hend⟩ <;> rw [takePageFault, hend]
  · exact .mono (by decide) (.of_refused (if_pos hres))
  · exact .mono (by decide)
      (.of_goes (phaseStep_fault_absent habsent va) (.of_goes (by rw [phaseStep, hacq]) (endsWithin_panicking t)))
  · exact .mono (by decide)
      (.of_goes (phaseStep_fault_absent habsent va) (.of_goes (by rw [phaseStep, hacq])
        (.of_goes (phaseStep_update_overflow hover _ _ _) (endsWithin_panicking t))))
  · exact .of_goes (phaseStep_fault_absent habsent va) (.of_goes (by rw [phaseStep, hacq])
      (.of_goes (phaseStep_update_fits hfits _ _ _) (.of_goes rfl (endsWithin_retry _ va))))

end Sys2Proof.Machine

/-- Settles O37: one case per end of the first translation, each followed through its phases. -/
theorem sequencerPhasesGiveTheOneStepResolve : Obligations.SequencerPhasesGiveTheOneStepResolve := by
  intro s va hfatal
  show EndsWithin 8 s (.xlate va) (exec (.resolve va) s)
  rw [exec, execResolve, unlessFatal_of_running hfatal]
  cases htr : translateVa s.cfg.space s.pt va with
  | ok r => exact .mono (by decide) (.of_goes (by rw [phaseStep, htr]) (endsWithin_hit s r))
  | pageFault v stale => exact .of_goes (by rw [phaseStep, htr]) (endsWithin_fault s va v)
  | addressOutOfRange => exact .mono (by decide) (.of_goes (by rw [phaseStep, htr]) (endsWithin_error s _))
  | invalidConfiguration => exact .mono (by decide) (.of_goes (by rw [phaseStep, htr]) (endsWithin_error s _))

end

section
/-! PROOFS. The slots of the store that a fault writes (20_memory.md R51, 60_exceptions.md R219). -/

open Sys2Proof Sys2Proof.Machine

namespace Sys2Proof.Machine

/-- From `s` to `t` the constants and the host's moves stay, and of the store at most the slot of page `v` and, when no
frame is free, the slot of the oldest resident page are written. -/
def WritesAtMost (v : Nat) (s t : State) : Prop :=
  t.cfg = s.cfg ∧ t.host = s.host ∧
  ∀ a, a ≠ v → (s.freeFrames = [] → s.resident.head?.map Prod.fst ≠ some a) → ptRead t.pt a = ptRead s.pt a

/-- A store left as it was. -/
theorem WritesAtMost.of_pt_eq {v : Nat} {s t : State} (hcfg : t.cfg = s.cfg) (hhost : t.host = s.host)
    (hpt : t.pt = s.pt) : WritesAtMost v s t :=
  ⟨hcfg, hhost, fun a _ _ => congrArg (ptRead · a) hpt⟩

theorem writesAtMost_of_handleFault_loaded {s u : State} {v f : Nat} (h : handleFault s v = .loaded f u) :
    WritesAtMost v s u := by
  obtain ⟨hcfg, hhost, -, -, -, -, -, -, hother⟩ := handleFault_loaded h
  exact ⟨hcfg, hhost, hother⟩

/-- A handler that panics may have evicted, and has not written the slot of the page itself (R169). -/
theorem writesAtMost_of_handleFault_panicked {s u : State} {v : Nat} (h : handleFault s v = .panicked u) :
    WritesAtMost v s u := by
  obtain ⟨hcfg, hhost, -, -, -, -, hother, -⟩ := handleFault_panicked h
  exact ⟨hcfg, hhost, fun a _ => hother a⟩

/-- HANDLE_FAULT and RESOLVE lead to the handler for no page but the one their operand names (R72, R75). -/
theorem asked_page_eq {s : State} {i : Instr} {v w : Nat}
    (hoperand : i = .handleFault v ∨ ∃ va : Int, i = .resolve va ∧ va.toNat / 2 ^ s.cfg.space.offsetBits = v)
    (hasked : i = .handleFault w ∨ ResolvesPage s i w) : w = v := by
  rcases hoperand with rfl | ⟨va, rfl, hv⟩ <;> rcases hasked with hi | ⟨vb, hi, -, hw⟩ <;> cases hi
  · rfl
  · rw [← hw, ← hv, vpnOf, Nat.shiftRight_eq_div_pow]

end Sys2Proof.Machine

/-- Settles O29: by the inversion of `exec`, only the fault handler writes the store, and it runs for the page asked for. -/
theorem faultHandlingWritesOnlyThePageAndTheVictim : Obligations.FaultHandlingWritesOnlyThePageAndTheVictim := by
  intro s t v i hoperand hx
  show WritesAtMost v s t
  cases exec_effect hx with
  | answers ha _ =>
    obtain ⟨⟨hcfg, hpt, -⟩, hhost⟩ := ha
    exact .of_pt_eq hcfg hhost hpt
  | touches _ _ same _ _ _ =>
    obtain ⟨hcfg, hpt, -, -, hhost⟩ := same
    exact .of_pt_eq hcfg hhost hpt
  | loads w f u handled same host _ _ _ asked =>
    obtain rfl := asked_page_eq hoperand asked
    obtain ⟨hcfg, hpt, -⟩ := same
    rw [WritesAtMost, hcfg, host, hpt]
    exact writesAtMost_of_handleFault_loaded handled
  | panics w u handled eq _ _ asked =>
    obtain rfl := asked_page_eq hoperand asked
    rw [eq, WritesAtMost, State.panic_cfg, State.panic_host, State.panic_pt]
    exact writesAtMost_of_handleFault_panicked handled

end

section
/-! PROOFS. The packed word and the command record (30_encoding.md R73 to R77): the fields of a packed word, the round
trip of the encoder and the decoder, and what the opcode alone decides. -/

open Sys2Proof Sys2Proof.Machine

namespace Sys2Proof

/-! ### The fields of a packed word -/

/-- The lowest `n` bits of a number written as a part of `n` bits below another part. -/
theorem bitField_low {low n : Nat} (h : low < 2 ^ n) (high : Nat) : bitField (low + 2 ^ n * high) 0 n = low := by
  rw [bitField, Nat.shiftRight_zero, Nat.add_mul_mod_self_left, Nat.mod_eq_of_lt h]

/-- A field that lies above the low part is a field of the high part. -/
theorem bitField_above {low n : Nat} (h : low < 2 ^ n) (high lo len : Nat) :
    bitField (low + 2 ^ n * high) (n + lo) len = bitField high lo len := by
  have hdiv : (low + 2 ^ n * high) / 2 ^ n = high := by
    rw [Nat.add_mul_div_left _ _ (Nat.two_pow_pos n), Nat.div_eq_of_lt h, Nat.zero_add]
  rw [bitField, bitField, Nat.shiftRight_add, Nat.shiftRight_eq_div_pow _ n, hdiv]

/-- The fields of a packed word, each above the one before it (R74). -/
theorem pack_eq (w : PortWidths) (c : Command) :
    pack w c = signedPattern w.aiw c.addr + 2 ^ w.aiw * (c.raw + 2 ^ w.rw * (c.val + 2 ^ w.fw * c.op.toNat)) := by
  rw [pack]
  ring

/-- The operand fields of a record fit the port. -/
structure Command.Fits (w : PortWidths) (c : Command) : Prop where
  addr : fitsSigned w.aiw c.addr
  raw  : fitsUnsigned w.rw c.raw
  val  : fitsUnsigned w.fw c.val

/-- Reading the packed word of a record that fits gives the record back (R74, R75). -/
theorem unpack_pack {w : PortWidths} {c : Command} (h : c.Fits w) : unpack w (pack w c) = c := by
  obtain ⟨⟨hlo, hhi⟩, hraw, hval⟩ := h
  have hpat := signedPattern_lt w.aiw c.addr
  have haddr : bitField (pack w c) 0 w.aiw = signedPattern w.aiw c.addr := by
    rw [pack_eq, bitField_low hpat]
  have hrawField : bitField (pack w c) w.aiw w.rw = c.raw := by
    rw [pack_eq]
    exact (bitField_above hpat _ 0 _).trans (bitField_low hraw _)
  have hvalField : bitField (pack w c) (w.aiw + w.rw) w.fw = c.val := by
    rw [pack_eq, bitField_above hpat]
    exact (bitField_above hraw _ 0 _).trans (bitField_low hval _)
  have hopField : bitField (pack w c) (w.aiw + w.rw + w.fw) 4 = c.op.toNat := by
    rw [pack_eq, Nat.add_assoc, bitField_above hpat, bitField_above hraw]
    exact (bitField_above hval _ 0 _).trans (Nat.mod_eq_of_lt c.op.isLt)
  rw [unpack, haddr, hrawField, hvalField, hopField, signExtend_signedPattern hlo hhi, BitVec.ofNat_toNat,
    BitVec.setWidth_eq]

/-! ### The encoder and the decoder -/

theorem fitsSigned_zero (n : Nat) : fitsSigned n 0 := by
  have : (0 : Int) < 2 ^ n := by positivity
  omega

theorem bitValue_lt {n : Nat} (hn : 0 < n) (b : Bool) : bitValue b < 2 ^ n := by
  have := Nat.one_lt_two_pow hn.ne'
  cases b <;> simp [bitValue, this]

theorem bitAt_bitValue (b : Bool) : bitAt (bitValue b) 0 = b := by
  cases b <;> rfl

/-- The record of a well-formed command fits the port: the fields the command does not use are zero. -/
theorem commandOf_fits {w : PortWidths} {i : Instr} (h : i.wellFormed w) : (commandOf i).Fits w := by
  have hzero := fitsSigned_zero w.aiw
  cases i with
  | translate | resolve | touch | handleFault => exact ⟨h, Nat.two_pow_pos _, Nat.two_pow_pos _⟩
  | decode raw => exact ⟨hzero, h, Nat.two_pow_pos _⟩
  | setPresent raw value =>
    obtain ⟨hraw, hfw⟩ := h
    exact ⟨hzero, hraw, bitValue_lt hfw value⟩
  | setFrame raw f =>
    obtain ⟨hraw, hf⟩ := h
    exact ⟨hzero, hraw, hf⟩

/-- The record of a command stands for the command (R76). -/
theorem decodeCommand_commandOf (i : Instr) : decodeCommand (commandOf i) = .instr i := by
  cases i with
  | setPresent raw value =>
    show Decoded.instr (.setPresent raw (bitAt (bitValue value) 0)) = _
    rw [bitAt_bitValue]
  | _ => rfl

/-- A packed word of the right size stands for its record. -/
theorem decodePacked_of_lt {w : PortWidths} {cw : Nat} (h : cw < 2 ^ w.packedBits) :
    decodePacked w cw = decodeCommand (unpack w cw) :=
  if_pos h

/-- A word that decodes to a command is the packed word of a record that stands for it. -/
theorem decodeCommand_unpack {w : PortWidths} {cw : Nat} {i : Instr} (h : decodePacked w cw = .instr i) :
    decodeCommand (unpack w cw) = .instr i := by
  rw [decodePacked] at h
  split at h
  · exact h
  · cases h

/-! ### What the opcode decides -/

/-- The opcodes that are no command's (R77). -/
def ReservedOpcode (op : Opcode) : Prop := op.toNat = 0 ∨ 8 ≤ op.toNat

/-- An opcode is one of the four that take an address, one of the three of the codec, or reserved (R76, R77). -/
theorem opcode_cases (op : Opcode) :
    (op = 0x1#4 ∨ op = 0x2#4 ∨ op = 0x3#4 ∨ op = 0x4#4) ∨ op = 0x5#4 ∨ op = 0x6#4 ∨ op = 0x7#4 ∨ ReservedOpcode op := by
  unfold ReservedOpcode
  revert op
  decide

/-- A record with a reserved opcode is no command, whatever its other fields hold (R77). -/
theorem decodeCommand_of_reserved {c : Command} (h : ReservedOpcode c.op) :
    decodeCommand c = .rejected (.reservedOpcode c.op) := by
  have hne : ∀ op : Opcode, 1 ≤ op.toNat → op.toNat < 8 → c.op ≠ op := by
    rintro op h1 h8 rfl
    rcases h with h | h <;> omega
  simp [decodeCommand, hne]

theorem unpack_zero_op (w : PortWidths) : (unpack w 0).op = 0x0#4 := by
  simp [unpack, bitField]

theorem bitAt_zero_congr {m n : Nat} (h : m % 2 = n % 2) : bitAt m 0 = bitAt n 0 := by
  rw [bitAt, bitAt, Nat.testBit_zero, Nat.testBit_zero, h]

end Sys2Proof

namespace Sys2Proof.Machine

/-- A step with a command on the port runs the record that the host presents (R248). -/
theorem step_of_command {s : State} {c : Command} {rest : List HostMove} (h : s.host = .command c :: rest) :
    step s = runCommand c (s.withHost rest) := by
  rw [step, takeMove, h]

theorem runCommand_of_instr {c : Command} {i : Instr} (h : decodeCommand c = .instr i) (s : State) :
    runCommand c s = exec i s := by
  rw [runCommand, h]

theorem runCommand_of_reserved {c : Command} (h : ReservedOpcode c.op) (s : State) :
    runCommand c s = illegalCommand s := by
  rw [runCommand, decodeCommand_of_reserved h]

end Sys2Proof.Machine

/-- Settles O1: the record of a well-formed command fits the port, so its packed word unpacks to it. -/
theorem decodingInvertsEncoding : Obligations.DecodingInvertsEncoding := by
  intro w i h
  have hfits := commandOf_fits h
  rw [encodePacked, decodePacked_of_lt (Laws.EncodeFits.pack_lt hfits.raw hfits.val), unpack_pack hfits,
    decodeCommand_commandOf]

/-- Settles O3: one case per opcode, with the fields that its command reads. -/
theorem unusedFieldsAreIgnored : Obligations.UnusedFieldsAreIgnored := by
  rintro ⟨op, addr, raw, val⟩ ⟨_, addr', raw', val'⟩ rfl haddr hraw hbit hval
  dsimp only at haddr hraw hbit hval
  rcases opcode_cases op with haddrOp | rfl | rfl | rfl | hres
  · rcases haddrOp with rfl | rfl | rfl | rfl <;>
      exact congrArg (fun x => decodeCommand ⟨_, x, 0, 0⟩) (haddr (by decide) (by decide))
  · exact congrArg (fun r => Decoded.instr (.decode r)) (hraw (by decide) (by decide))
  · exact congrArg₂ (fun r b => Decoded.instr (.setPresent r b)) (hraw (by decide) (by decide)) (bitAt_zero_congr (hbit rfl))
  · exact congrArg₂ (fun r f => Decoded.instr (.setFrame r f)) (hraw (by decide) (by decide)) (hval rfl)
  · rw [decodeCommand_of_reserved hres, decodeCommand_of_reserved hres]

/-- Settles O4: the decoder rejects a reserved opcode, and a running block answers it without touching its state. -/
theorem reservedOpcodesAreIllegal : Obligations.ReservedOpcodesAreIllegal := by
  refine ⟨fun s c rest hhost hfatal hres => ⟨(s.withHost rest).signal .illegalCommand, ?_, rfl, ?_, rfl⟩,
    fun w => ?_, rfl⟩
  · rw [step_of_command hhost, runCommand_of_reserved hres, illegalCommand,
      unlessFatal_of_running (s := s.withHost rest) hfatal]
  · exact ⟨rfl, rfl, rfl, rfl, rfl⟩
  · have hop := unpack_zero_op w
    rw [decodePacked_of_lt (Nat.two_pow_pos _), decodeCommand_of_reserved (.inl (by rw [hop]; rfl)), hop]

/-- Settles O2: each word is evaluated. -/
theorem wordsOfTheSpecDecode : Obligations.WordsOfTheSpecDecode := by
  refine ⟨?_, ?_, ?_, ?_, ?_, ?_, ?_, ?_⟩ <;> decide

/-- Settles O6: the table's decoder reads the record that the host then presents. -/
theorem placedTableWordRuns : Obligations.PlacedTableWordRuns := by
  intro s nbits w i h
  have hdec : decodePacked .table (w % 2 ^ nbits) = .instr i := by
    rw [decodeTableWord] at h
    split at h <;> cases h
    assumption
  rw [step_of_command rfl, runCommand_of_instr (decodeCommand_unpack hdec)]
  rfl

end

section
/-! PROOFS. What a command answers (30_encoding.md R78, R79; 60_exceptions.md R210): every response a command can give, and
the widths of its fields. -/

open Sys2Proof Sys2Proof.Machine

namespace Sys2Proof.Machine

/-! ### The response of a command -/

/-- The fields DECODE defines (R120). -/
def defineDecoded (c : AddressSpaceConfig) (raw : Nat) (r : Response) : Response :=
  { r with
    frame         := frameField c.frameBits raw
    present       := presentBit c.frameBits raw
    protection    := protectionBit c.frameBits raw
    modified      := modifiedBit c.frameBits raw
    referenced    := referencedBit c.frameBits raw
    cacheDisabled := cacheDisableBit c.frameBits raw }

theorem exec_decode_of_running {s : State} (h : s.fatal = false) (raw : Nat) :
    exec (.decode raw) s = .next (s.respondOk (defineDecoded s.cfg.space raw)) :=
  unlessFatal_of_running h _

/-- A panicked block answers every command with FATAL (R217, R222). -/
theorem exec_of_panicked {s : State} (h : s.fatal = true) (i : Instr) : exec i s = .next (s.signal .fatal) := by
  cases i <;> exact unlessFatal_of_panicked h _

/-- Every response of a command that gives a next state, with the commands that give it (R210): the fields that are set
over the free response of the state in which the command began. -/
inductive Reply (i : Instr) (s t : State) : Prop where
  | fatal (resp : t.resp = { s.freeResponse with status := .fatal })
  | outOfRange (resp : t.resp = { s.freeResponse with status := .addressOutOfRange })
      (asked : ∃ x, i = .translate x ∨ i = .resolve x ∨ i = .handleFault x)
  | invalidConfiguration (resp : t.resp = { s.freeResponse with status := .invalidConfiguration })
      (asked : (∃ va, i = .translate va ∨ i = .resolve va) ∨ ∃ raw f, i = .setFrame raw f)
  | pageFault (va : Int) (v : Nat) (stale : Option Entry) (asked : i = .translate va)
      (result : translateVa s.cfg.space s.pt va = .pageFault v stale)
      (resp : t.resp = definePageFault v stale s.freeResponse)
  | translated (va : Int) (u : State) (r : TranslationResult)
      (table : u = s ∨ ∃ v f, v < s.cfg.space.virtualPageCount ∧ handleFault s v = .loaded f u)
      (result : translateVa s.cfg.space u.pt va = .ok r)
      (resp : t.resp = { r.define s.freeResponse with status := .ok })
  | touched (resp : t.resp = { s.freeResponse with status := .ok })
  | loaded (v f : Nat) (u : State) (handled : handleFault s v = .loaded f u)
      (resp : t.resp = { s.freeResponse with frame := f, status := .ok })
  | decoded (raw : Nat) (resp : t.resp = { defineDecoded s.cfg.space raw s.freeResponse with status := .ok })
  | presentSet (raw : Nat) (value : Bool) (asked : i = .setPresent raw value)
      (resp : t.resp = { s.freeResponse with raw := setPresent s.cfg.space.frameBits raw value, status := .ok })
  | frameSet (raw f : Nat) (asked : i = .setFrame raw f) (fits : f < s.cfg.space.frameCount)
      (resp : t.resp = { s.freeResponse with raw := setFrame s.cfg.space.frameBits raw f, status := .ok })

/-- The free response is the one of the configuration and the draw. -/
theorem freeResponse_congr {s t : State} (hcfg : t.cfg = s.cfg) (hdraws : t.draws = s.draws) :
    t.freeResponse = s.freeResponse := by
  rw [State.freeResponse, State.freeResponse, hcfg, hdraws]

theorem freeResponse_of_handleFault_loaded {s u : State} {v f : Nat} (h : handleFault s v = .loaded f u) :
    u.freeResponse = s.freeResponse := by
  obtain ⟨hcfg, -, -, hdraws, -⟩ := handleFault_loaded h
  exact freeResponse_congr hcfg hdraws

theorem freeResponse_of_handleFault_panicked {s u : State} {v : Nat} (h : handleFault s v = .panicked u) :
    u.freeResponse = s.freeResponse := by
  obtain ⟨hcfg, -, -, hdraws, -⟩ := handleFault_panicked h
  exact freeResponse_congr hcfg hdraws

theorem reply_of_handleFault_panicked {i : Instr} {s u : State} {v : Nat} (h : handleFault s v = .panicked u) :
    Reply i s u.panic :=
  .fatal (by rw [State.panic_resp, freeResponse_of_handleFault_panicked h])

theorem translate_reply (s : State) (va : Int) :
    Reply (.translate va) s (s.respondTranslation (translateVa s.cfg.space s.pt va)) := by
  cases htr : translateVa s.cfg.space s.pt va with
  | ok r => exact .translated va s r (.inl rfl) htr rfl
  | pageFault v stale => exact .pageFault va v stale rfl htr rfl
  | addressOutOfRange => exact .outOfRange rfl ⟨va, .inl rfl⟩
  | invalidConfiguration => exact .invalidConfiguration rfl (.inl ⟨va, .inl rfl⟩)

theorem touch_reply {s t : State} {x : Int} (hf : s.fatal = false) (h : exec (.touch x) s = .next t) :
    Reply (.touch x) s t := by
  rw [exec, execTouch, unlessFatal_of_running hf] at h
  split at h <;> rw [next_inj] at h <;> subst h <;> exact .touched rfl

theorem setFrame_reply {s t : State} {raw f : Nat} (hf : s.fatal = false)
    (h : exec (.setFrame raw f) s = .next t) : Reply (.setFrame raw f) s t := by
  rw [exec, execSetFrame, unlessFatal_of_running hf] at h
  split at h <;> rw [next_inj] at h <;> subst h
  · exact .invalidConfiguration rfl (.inr ⟨raw, f, rfl⟩)
  · rename_i hfits
    exact .frameSet raw f rfl (frameOverflows_eq_false.1 (Bool.eq_false_of_not_eq_true hfits)) rfl

theorem handleFault_reply {s t : State} {x : Int} (hf : s.fatal = false)
    (h : exec (.handleFault x) s = .next t) : Reply (.handleFault x) s t := by
  rw [exec, execHandleFault, unlessFatal_of_running hf] at h
  cases hslot : slotOperand s.cfg.space x with
  | none =>
    rw [hslot, next_inj] at h
    exact h ▸ .outOfRange rfl ⟨x, .inr (.inr rfl)⟩
  | some v =>
    rw [hslot] at h
    dsimp only at h
    cases hu : handleFault s v with
    | loaded f u =>
      rw [hu, next_inj] at h
      subst h
      exact .loaded v f u hu (by rw [State.respondOk_resp, freeResponse_of_handleFault_loaded hu])
    | panicked u =>
      rw [hu, next_inj] at h
      exact h ▸ reply_of_handleFault_panicked hu
    | refused => rw [hu] at h; cases h

/-- RESOLVE answers a page fault by the retry, on the table that the handler left (R195). -/
theorem takePageFault_reply {s t : State} {va : Int} (hr : addressInRange s.cfg.space va = true)
    (h : takePageFault s va (vpnOf s.cfg.space va.toNat) = .next t) : Reply (.resolve va) s t := by
  rw [takePageFault] at h
  cases hu : handleFault s (vpnOf s.cfg.space va.toNat) with
  | loaded f u =>
    obtain ⟨e, -, -, -, -, hcfg, htr⟩ := retry_of_loaded hr rfl hu
    rw [hu] at h
    dsimp only at h
    rw [next_inj, returnFromPageFault, htr] at h
    subst h
    exact .translated va u _ (.inr ⟨_, f, vpnOf_lt hr, hu⟩) (hcfg ▸ htr)
      (by rw [State.respondOk_resp, freeResponse_of_handleFault_loaded hu])
  | panicked u =>
    rw [hu, next_inj] at h
    exact h ▸ reply_of_handleFault_panicked hu
  | refused => rw [hu] at h; cases h

theorem resolve_reply {s t : State} {va : Int} (hf : s.fatal = false)
    (h : exec (.resolve va) s = .next t) : Reply (.resolve va) s t := by
  rw [exec, execResolve, unlessFatal_of_running hf] at h
  rcases translate_cases s.cfg.space s.pt va with ⟨-, htr⟩ | ⟨hr, -, htr⟩ | ⟨e, hr, -, -, htr⟩ | ⟨-, -, -, -, -, htr⟩ |
      ⟨e, -, -, -, -, htr⟩ <;> rw [htr] at h
  · exact next_inj.1 h ▸ .outOfRange rfl ⟨va, .inr (.inl rfl)⟩
  · exact takePageFault_reply hr h
  · exact takePageFault_reply hr h
  · exact next_inj.1 h ▸ .invalidConfiguration rfl (.inl ⟨va, .inr rfl⟩)
  · exact next_inj.1 h ▸ .translated va s _ (.inl rfl) htr rfl

/-- The inversion of `exec` for the response port. -/
theorem exec_reply {i : Instr} {s t : State} (h : exec i s = .next t) : Reply i s t := by
  cases hf : s.fatal with
  | true =>
    rw [exec_of_panicked hf, next_inj] at h
    exact h ▸ .fatal rfl
  | false =>
    cases i with
    | translate va =>
      rw [exec, execTranslate, unlessFatal_of_running hf, next_inj] at h
      exact h ▸ translate_reply s va
    | resolve va => exact resolve_reply hf h
    | touch x => exact touch_reply hf h
    | handleFault x => exact handleFault_reply hf h
    | decode raw =>
      rw [exec_decode_of_running hf, next_inj] at h
      exact h ▸ .decoded raw rfl
    | setPresent raw value =>
      rw [exec, execSetPresent, unlessFatal_of_running hf, next_inj] at h
      exact h ▸ .presentSet raw value rfl rfl
    | setFrame raw f => exact setFrame_reply hf h

/-! ### The status of a response -/

/-- The statuses, each signal with the commands that answer it (R210). -/
theorem Reply.status_cases {i : Instr} {s t : State} (h : Reply i s t) :
    t.resp.status = .ok ∨ t.resp.status = .fatal ∨
    (t.resp.status = .pageFault ∧ ∃ va, i = .translate va) ∨
    (t.resp.status = .addressOutOfRange ∧ ∃ x, i = .translate x ∨ i = .resolve x ∨ i = .handleFault x) ∨
    (t.resp.status = .invalidConfiguration ∧
      ((∃ va, i = .translate va ∨ i = .resolve va) ∨ ∃ raw f, i = .setFrame raw f)) := by
  cases h with
  | fatal resp => exact .inr (.inl (congrArg Response.status resp))
  | pageFault va v stale asked _ resp =>
    exact .inr (.inr (.inl ⟨resp ▸ definePageFault_status v stale _, va, asked⟩))
  | outOfRange resp asked => exact .inr (.inr (.inr (.inl ⟨congrArg Response.status resp, asked⟩)))
  | invalidConfiguration resp asked => exact .inr (.inr (.inr (.inr ⟨congrArg Response.status resp, asked⟩)))
  | _ => exact .inl (congrArg Response.status ‹t.resp = _›)

/-- After a command the answer is FATAL exactly when the flag is set (R221, R222). -/
theorem exec_status_fatal_iff {i : Instr} {s t : State} (h : exec i s = .next t) :
    t.resp.status = .fatal ↔ t.fatal = true := by
  cases exec_effect h with
  | answers ha fatal_iff =>
    obtain ⟨hsame, -⟩ := ha
    rw [fatal_iff, hsame.fatal_eq]
  | touches _ _ same status running _ =>
    obtain ⟨-, -, -, hfatal, -⟩ := same
    simp [status, hfatal, running]
  | loads _ _ _ handled same _ status running _ _ =>
    obtain ⟨-, -, hfatal, -⟩ := handleFault_loaded handled
    simp [status, same.fatal_eq, hfatal, running]
  | panics _ _ _ eq _ _ _ => simp [eq]

/-! ### The widths of a response -/

/-- A page fault names a page of the block and the entry its slot holds (R143). -/
theorem pageFault_slot {c : AddressSpaceConfig} {pt : PageTable} {va : Int} {v : Nat} {stale : Option Entry}
    (h : translateVa c pt va = .pageFault v stale) : v < c.virtualPageCount ∧ ptRead pt v = stale := by
  rcases translate_cases c pt va with ⟨-, htr⟩ | ⟨hr, he, htr⟩ | ⟨e, hr, he, -, htr⟩ | ⟨-, -, -, -, -, htr⟩ |
      ⟨e, -, -, -, -, htr⟩ <;> rw [htr] at h <;> cases h
  · exact ⟨vpnOf_lt hr, he⟩
  · exact ⟨vpnOf_lt hr, he⟩

theorem physicalAddress_lt {c : AddressSpaceConfig} {f o : Nat} (hf : f < c.frameCount) (ho : o < 2 ^ c.offsetBits) :
    physicalAddress c f o < 2 ^ c.physicalAddressBits := by
  rw [physicalAddress_eq_add ho, AddressSpaceConfig.physicalAddressBits, Nat.pow_add]
  calc f * 2 ^ c.offsetBits + o < (f + 1) * 2 ^ c.offsetBits := by rw [Nat.add_mul]; omega
    _ ≤ 2 ^ c.frameBits * 2 ^ c.offsetBits := Nat.mul_le_mul_right _ hf

/-- The fields of a translation fit, on a store whose raw words fit (R145). -/
theorem responseFits_define {p : Params} {pt : PageTable} {va : Int} {t : TranslationResult}
    (hpt : ∀ x ∈ pt, entryFits p.widths x.2) (h : translateVa p.space pt va = .ok t) {r : Response}
    (hr : ResponseFits p r) : ResponseFits p (t.define r) := by
  obtain ⟨-, -, -, -, -, -, hentry⟩ := hr
  rcases translate_cases p.space pt va with ⟨-, htr⟩ | ⟨-, -, htr⟩ | ⟨e, -, -, -, htr⟩ | ⟨-, -, -, -, -, htr⟩ |
      ⟨e, hva, he, -, hf, htr⟩ <;> rw [htr] at h <;> cases h
  obtain ⟨-, hraw⟩ := hpt _ (mem_of_ptRead he)
  obtain ⟨h0, h1⟩ := addressInRange_iff.1 hva
  have hoff := offsetOf_lt p.space va.toNat
  exact ⟨vpnOf_lt hva, hoff, hf, physicalAddress_lt hf hoff, (Int.toNat_lt h0).2 (by exact_mod_cast h1), hraw, hentry⟩

/-- The fields of a page fault fit, on a store whose entries fit (R143). -/
theorem responseFits_definePageFault {p : Params} {pt : PageTable} {va : Int} {v : Nat} {stale : Option Entry}
    (hpt : ∀ x ∈ pt, entryFits p.widths x.2) (h : translateVa p.space pt va = .pageFault v stale) {r : Response}
    (hr : ResponseFits p r) : ResponseFits p (definePageFault v stale r) := by
  obtain ⟨-, hoff, hframe, hpa, hva, hraw, hentry⟩ := hr
  obtain ⟨hv, hslot⟩ := pageFault_slot h
  cases stale with
  | none => exact ⟨hv, hoff, hframe, hpa, hva, hraw, hentry⟩
  | some e =>
    obtain ⟨hframe', hraw'⟩ := hpt _ (mem_of_ptRead hslot)
    exact ⟨hv, hoff, hframe, hpa, hva, hraw', hframe'⟩

/-- The status is no number with a width of its own. -/
theorem ResponseFits.with_status {p : Params} {r : Response} (h : ResponseFits p r) (st : Status) :
    ResponseFits p { r with status := st } := h

/-- A frame number that fits, over a response that fits. -/
theorem ResponseFits.with_frame {p : Params} {r : Response} (h : ResponseFits p r) {f : Nat}
    (hf : f < p.space.frameCount) : ResponseFits p { r with frame := f } := by
  obtain ⟨hvpn, hoff, -, hpa, hva, hraw, hentry⟩ := h
  exact ⟨hvpn, hoff, hf, hpa, hva, hraw, hentry⟩

/-- A raw word that fits, over a response that fits. -/
theorem ResponseFits.with_raw {p : Params} {r : Response} (h : ResponseFits p r) {raw : Nat}
    (hraw : raw < 2 ^ p.widths.rw) : ResponseFits p { r with raw := raw } := by
  obtain ⟨hvpn, hoff, hframe, hpa, hva, -, hentry⟩ := h
  exact ⟨hvpn, hoff, hframe, hpa, hva, hraw, hentry⟩

theorem frameField_lt (fb raw : Nat) : frameField fb raw < 2 ^ fb :=
  frameField_eq_mod fb raw ▸ Nat.mod_lt _ (Nat.two_pow_pos fb)

theorem widthsOk_of_inv {s : State} (h : s.Inv) : s.WidthsOk := by
  obtain ⟨-, -, -, hwidths, -⟩ := h
  exact hwidths

/-- A raw word has room for its control bits (R9). -/
theorem frameBits_lt_rw_of_inv {s : State} (h : s.Inv) : s.cfg.space.frameBits < s.cfg.widths.rw := by
  obtain ⟨⟨-, hrw, -⟩, -⟩ := h
  omega

/-- The response of a well-formed command on a block that meets the invariants fits (R78). -/
theorem exec_responseFits {i : Instr} {s t : State} (h : s.Inv) (hi : i.wellFormed s.cfg.widths)
    (hx : exec i s = .next t) : ResponseFits s.cfg t.resp := by
  have hfree := responseFits_free s
  have hwidths := widthsOk_of_inv h
  have hrw := frameBits_lt_rw_of_inv h
  cases exec_reply hx with
  | fatal resp | outOfRange resp | invalidConfiguration resp | touched resp => exact resp ▸ hfree
  | pageFault va v stale _ result resp => exact resp ▸ responseFits_definePageFault hwidths result hfree
  | translated va u r table result resp =>
    rcases table with rfl | ⟨v, f, hv, hu⟩
    · exact resp ▸ (responseFits_define hwidths result hfree).with_status .ok
    · obtain ⟨hcfg, -⟩ := handleFault_loaded hu
      have hwidthsLoaded := widthsOk_of_inv (inv_of_handleFault_loaded h hv hu)
      exact resp ▸ (responseFits_define (hcfg ▸ hwidthsLoaded) result hfree).with_status .ok
  | loaded v f u handled resp =>
    obtain ⟨-, -, -, -, -, -, -, hf, -⟩ := handleFault_loaded handled
    exact resp ▸ hfree.with_frame hf
  | decoded raw resp => exact resp ▸ hfree.with_frame (frameField_lt _ raw)
  | presentSet raw value asked resp =>
    subst asked
    obtain ⟨hraw, -⟩ := hi
    exact resp ▸ hfree.with_raw (setPresent_lt value hraw hrw)
  | frameSet raw f asked fits resp =>
    subst asked
    obtain ⟨hraw, -⟩ := hi
    exact resp ▸ hfree.with_raw (setFrame_lt hraw fits hrw.le)

theorem responseFits_illegalCommand {s t : State} (h : illegalCommand s = .next t) : ResponseFits s.cfg t.resp := by
  cases hf : s.fatal with
  | true =>
    rw [illegalCommand, unlessFatal_of_panicked hf, next_inj] at h
    exact h ▸ responseFits_signal s .fatal
  | false =>
    rw [illegalCommand, unlessFatal_of_running hf, next_inj] at h
    exact h ▸ responseFits_signal s .illegalCommand

end Sys2Proof.Machine

/-- Settles O41: one case per status a command can answer; FATAL and the flag by the inversion of `exec`. -/
theorem eachStatusHasItsNumberAndItsCommands : Obligations.EachStatusHasItsNumberAndItsCommands := by
  refine ⟨rfl, fun i s t hx => ?_⟩
  rw [← exec_status_fatal_iff hx]
  rcases (exec_reply hx).status_cases with hst | hst | ⟨hst, asked⟩ | ⟨hst, asked⟩ | ⟨hst, asked⟩
  · simp [hst]
  · simp [hst]
  · simp [hst, asked]
  · simp [hst, asked]
  · simp [hst, asked]

/-- Settles O53: a command by `exec_responseFits`; before the first response the port holds a trimmed free value. -/
theorem responsesFitTheirFields : Obligations.ResponsesFitTheirFields :=
  ⟨fun _ _ _ h hi hx => exec_responseFits h hi hx, fun _ _ h => responseFits_illegalCommand h,
    fun p _ _ _ => responseFits_trim p _⟩

end

section
/-! PROOFS. The constants of the block (40_config.md R106, 70_reset_and_hazards.md R246). -/

open Sys2Proof Sys2Proof.Machine

namespace Sys2Proof.Machine

/-- No command changes the constants (R106). -/
theorem exec_cfg {i : Instr} {s t : State} (h : exec i s = .next t) : t.cfg = s.cfg := by
  cases exec_effect h with
  | answers ha _ =>
    obtain ⟨⟨hcfg, -⟩, -⟩ := ha
    exact hcfg
  | touches _ _ same _ _ _ =>
    obtain ⟨hcfg, -⟩ := same
    exact hcfg
  | loads _ _ _ handled same _ _ _ _ _ =>
    obtain ⟨hcfg, -⟩ := handleFault_loaded handled
    obtain ⟨hsame, -⟩ := same
    exact hsame.trans hcfg
  | panics _ u handled eq _ _ _ =>
    obtain ⟨hcfg, -⟩ := handleFault_panicked handled
    rw [eq, State.panic_cfg, hcfg]

end Sys2Proof.Machine

/-- Settles O45: by the inversion of `step`; a command by `exec_cfg`, and a reset launches the block with the constants it
has. -/
theorem theConfigurationNeverChanges : Obligations.TheConfigurationNeverChanges := by
  intro s t hstep
  rcases step_cases hstep with ⟨-, rfl⟩ | ⟨c, rest, i, -, -, hx⟩ | ⟨c, rest, r, -, -, hx⟩ | ⟨img, rest, -, -, rfl⟩
  · rfl
  · exact exec_cfg (s := s.withHost rest) hx
  · obtain ⟨⟨⟨hcfg, -⟩, -⟩, -⟩ := illegalCommand_next hx
    exact hcfg
  · rfl

end

section
/-! PROOFS. The construction of a configuration (40_config.md R100 to R106): the validation of one field, the two forms of
`create`, and the choice between them. -/

open Sys2Proof Sys2Proof.Machine

namespace Sys2Proof.Machine

/-! ### Going on with a value -/

@[simp] theorem Elaborated.ok_andThen {α β : Type} (a : α) (k : α → Elaborated β) : (Elaborated.ok a).andThen k = k a := rfl

@[simp] theorem Elaborated.signal_andThen {α β : Type} (g : ConfigSignal) (k : α → Elaborated β) :
    (Elaborated.signal g).andThen k = .signal g := rfl

@[simp] theorem Elaborated.sizeTextRefused_andThen {α β : Type} (k : α → Elaborated β) :
    Elaborated.sizeTextRefused.andThen k = .sizeTextRefused := rfl

theorem Elaborated.andThen_assoc {α β γ : Type} (x : Elaborated α) (k : α → Elaborated β) (l : β → Elaborated γ) :
    (x.andThen k).andThen l = x.andThen fun a => (k a).andThen l := by
  cases x <;> rfl

/-! ### One field -/

/-- `n` is a positive power of two (R104). -/
abbrev IsTwoPower (n : Int) : Prop := ∃ k : Nat, n = 2 ^ k

/-- A power of two is valid, and its exponent is what the configuration keeps (R104). -/
theorem validateField_two_pow (f : ConfigField) (k : Nat) : validateField f (2 ^ k) = .ok k := by
  have hlog : ((2 : Int) ^ k).toNat.log2 = k := by
    rw [show ((2 : Int) ^ k).toNat = 2 ^ k by exact_mod_cast Int.toNat_natCast (2 ^ k), Nat.log2_two_pow]
  rw [validateField, isPowerOfTwo, hlog, decide_eq_true rfl, if_pos rfl]

/-- Anything else is signalled, with the field's name and the value (R104). -/
theorem validateField_of_not {n : Int} (h : ¬ IsTwoPower n) (f : ConfigField) :
    validateField f n = .signal (.invalidConfiguration f (some n)) :=
  if_neg fun hpow => h ⟨_, of_decide_eq_true hpow⟩

/-! ### CREATE_COUNTS and CREATE_MEM -/

/-- CREATE_COUNTS of three powers of two keeps their exponents (R103). -/
theorem createCounts_two_pow (o f v : Nat) :
    createCounts (2 ^ o) (2 ^ f) (2 ^ v) = .ok { offsetBits := o, frameBits := f, vpnBits := v } := by
  simp only [createCounts, validateField_two_pow, Elaborated.ok_andThen]

theorem createCounts_bad_pageSize {ps : Int} (h : ¬ IsTwoPower ps) (fc vc : Int) :
    createCounts ps fc vc = .signal (.invalidConfiguration .pageSizeBytes (some ps)) := by
  rw [createCounts, validateField_of_not h, Elaborated.signal_andThen]

theorem createCounts_bad_frameCount {ps fc : Int} (hps : IsTwoPower ps) (h : ¬ IsTwoPower fc) (vc : Int) :
    createCounts ps fc vc = .signal (.invalidConfiguration .frameCount (some fc)) := by
  obtain ⟨o, rfl⟩ := hps
  simp only [createCounts, validateField_two_pow, validateField_of_not h, Elaborated.ok_andThen, Elaborated.signal_andThen]

theorem createCounts_bad_virtualPageCount {ps fc vc : Int} (hps : IsTwoPower ps) (hfc : IsTwoPower fc)
    (h : ¬ IsTwoPower vc) : createCounts ps fc vc = .signal (.invalidConfiguration .virtualPageCount (some vc)) := by
  obtain ⟨o, rfl⟩ := hps
  obtain ⟨f, rfl⟩ := hfc
  simp only [createCounts, validateField_two_pow, validateField_of_not h, Elaborated.ok_andThen, Elaborated.signal_andThen]

/-- CREATE_COUNTS succeeds exactly on three powers of two (R104). -/
theorem createCounts_eq_ok {ps fc vc : Int} {c : AddressSpaceConfig} :
    createCounts ps fc vc = .ok c ↔ ps = 2 ^ c.offsetBits ∧ fc = 2 ^ c.frameBits ∧ vc = 2 ^ c.vpnBits := by
  constructor
  · intro h
    by_cases hps : IsTwoPower ps
    · by_cases hfc : IsTwoPower fc
      · by_cases hvc : IsTwoPower vc
        · obtain ⟨o, rfl⟩ := hps
          obtain ⟨f, rfl⟩ := hfc
          obtain ⟨v, rfl⟩ := hvc
          rw [createCounts_two_pow] at h
          cases h
          exact ⟨rfl, rfl, rfl⟩
        · rw [createCounts_bad_virtualPageCount hps hfc hvc] at h
          cases h
      · rw [createCounts_bad_frameCount hps hfc] at h
        cases h
    · rw [createCounts_bad_pageSize hps] at h
      cases h
  · rintro ⟨rfl, rfl, rfl⟩
    exact createCounts_two_pow _ _ _

/-- Once the page size is valid, CREATE_MEM is the two divisibility checks and CREATE_COUNTS (R105). -/
theorem createMem_of_isTwoPower {ps : Int} (h : IsTwoPower ps) (pm vm : Int) :
    createMem ps pm vm =
      if ¬ ps ∣ pm then .signal (.invalidConfiguration .physicalMem (some pm))
      else if ¬ ps ∣ vm then .signal (.invalidConfiguration .virtualMem (some vm))
      else createCounts ps (pm / ps) (vm / ps) := by
  obtain ⟨k, rfl⟩ := h
  simp only [createMem, validateField_two_pow, Elaborated.ok_andThen, Int.dvd_iff_emod_eq_zero, ne_eq]

/-! ### Size arguments -/

/-- A byte count is taken as it is (R101). -/
theorem optionalBytes_map_bytes (n : Option Int) : optionalBytes (n.map .bytes) = .ok n := by
  cases n <;> rfl

/-- A text that PARSE_SIZE reads stands for its number of bytes (R101). -/
theorem toBytes_text {text : List Char} {n : Nat} (h : parseSize text = .ok n) :
    (SizeArg.text text).toBytes = (SizeArg.bytes n).toBytes := by
  simp only [SizeArg.toBytes, h, Elaborated.ok_andThen]

theorem optionalBytes_text {text : List Char} {n : Nat} (h : parseSize text = .ok n) :
    optionalBytes (some (.text text)) = optionalBytes (some (.bytes n)) := by
  rw [optionalBytes, toBytes_text h]
  rfl

/-- No text, no conversion: a parameter that is a byte count or was not supplied is taken as it is (R101). -/
theorem optionalBytes_of_no_text {a : Option SizeArg} (h : a = none ∨ ∃ n, a = some (.bytes n)) :
    ∃ n, optionalBytes a = .ok n := by
  rcases h with rfl | ⟨n, rfl⟩ <;> exact ⟨_, rfl⟩

/-! ### The choice of a pair -/

/-- `create` of byte counts is the table of R100. -/
theorem create_of_bytes (ps : Int) (fc vc pm vm : Option Int) :
    create { pageSize := .bytes ps, frameCount := fc, virtualPageCount := vc, physicalMem := pm.map .bytes,
             virtualMem := vm.map .bytes } = createFromPair ps fc vc pm vm := by
  simp only [create, SizeArg.toBytes, optionalBytes_map_bytes, Elaborated.ok_andThen]

/-- Any other choice than the two pairs is signalled (R100). -/
theorem createFromPair_wrong {fc vc pm vm : Option Int} (hcounts : ¬ (fc.isSome ∧ vc.isSome ∧ pm = none ∧ vm = none))
    (hmem : ¬ (fc = none ∧ vc = none ∧ pm.isSome ∧ vm.isSome)) (ps : Int) :
    createFromPair ps fc vc pm vm = .signal (wrongPairs ps fc vc pm vm) := by
  rw [createFromPair.eq_def]
  split
  · exact absurd ⟨rfl, rfl, rfl, rfl⟩ hcounts
  · exact absurd ⟨rfl, rfl, rfl, rfl⟩ hmem
  · rfl

/-- `text` is the size string of `a` that is converted first (R101, assumption 14). -/
abbrev FirstText (a : CreateArgs) (text : List Char) : Prop :=
  a.pageSize = .text text ∨
    (∃ n, a.pageSize = .bytes n) ∧
      (a.physicalMem = some (.text text) ∨
        (a.physicalMem = none ∨ ∃ n, a.physicalMem = some (.bytes n)) ∧ a.virtualMem = some (.text text))

/-- `create` begins with the first size string (R101). -/
theorem create_eq_andThen {a : CreateArgs} {text : List Char} (h : FirstText a text) :
    ∃ k : Nat → Elaborated AddressSpaceConfig, create a = (parseSize text).andThen k := by
  rcases h with hps | ⟨⟨n, hps⟩, hpm | ⟨hpm, hvm⟩⟩
  · rw [create, hps, SizeArg.toBytes, Elaborated.andThen_assoc]
    exact ⟨_, rfl⟩
  · simp only [create, hps, hpm, optionalBytes, SizeArg.toBytes, Elaborated.ok_andThen, Elaborated.andThen_assoc]
    exact ⟨_, rfl⟩
  · obtain ⟨m, hm⟩ := optionalBytes_of_no_text hpm
    rw [create, hps, SizeArg.toBytes, Elaborated.ok_andThen, hm, Elaborated.ok_andThen, hvm]
    simp only [optionalBytes, SizeArg.toBytes, Elaborated.andThen_assoc]
    exact ⟨_, rfl⟩

end Sys2Proof.Machine

/-- Settles O55: success by `createCounts_eq_ok`, and one lemma for each field that can be the first bad one. -/
theorem createCountsAcceptsExactlyPowersOfTwo : Obligations.CreateCountsAcceptsExactlyPowersOfTwo := by
  intro ps fc vc
  refine ⟨⟨fun ⟨c, h⟩ => ?_, ?_⟩, fun c h => ?_, fun hps => createCounts_bad_pageSize hps fc vc,
    fun hps hfc => createCounts_bad_frameCount hps hfc vc, createCounts_bad_virtualPageCount⟩
  · obtain ⟨hps, hfc, hvc⟩ := createCounts_eq_ok.1 h
    exact ⟨⟨_, hps⟩, ⟨_, hfc⟩, ⟨_, hvc⟩⟩
  · rintro ⟨⟨o, rfl⟩, ⟨f, rfl⟩, ⟨v, rfl⟩⟩
    exact ⟨_, createCounts_two_pow o f v⟩
  · obtain ⟨rfl, rfl, rfl⟩ := createCounts_eq_ok.1 h
    exact ⟨Nat.cast_pow 2 _, Nat.cast_pow 2 _, Nat.cast_pow 2 _, rfl, rfl⟩

/-- Settles O56: a valid page size leaves the two divisibility checks and the counts of the quotients. -/
theorem createMemDividesByThePageSize : Obligations.CreateMemDividesByThePageSize := by
  intro ps pm vm
  refine ⟨fun hps => ?_, fun hps hpm => ?_, fun hps hpm hvm => ?_, fun fc vc hps hpm hvm => ?_⟩
  · rw [createMem, validateField_of_not hps, Elaborated.signal_andThen]
  · rw [createMem_of_isTwoPower hps, if_pos hpm]
  · rw [createMem_of_isTwoPower hps, if_neg (not_not.2 hpm), if_pos hvm]
  · have hne : ps ≠ 0 := by
      obtain ⟨k, rfl⟩ := hps
      positivity
    subst hpm hvm
    rw [createMem_of_isTwoPower hps, if_neg (not_not.2 (Int.dvd_mul_left fc ps)),
      if_neg (not_not.2 (Int.dvd_mul_left vc ps)), Int.mul_ediv_cancel _ hne, Int.mul_ediv_cancel _ hne]

/-- Settles O57: over byte counts `create` is the table of R100; a text that is read is replaced by its bytes where it
stands; and `create` begins with the first text, so ends as it does. -/
theorem createTakesExactlyOnePair : Obligations.CreateTakesExactlyOnePair := by
  refine ⟨fun ps fc vc pm vm => ?_, fun a text n hn => ?_, fun a text hfirst => ?_⟩
  · rw [create_of_bytes]
    refine ⟨?_, ?_, fun hcounts hmem => ?_⟩
    · rintro f v rfl rfl rfl rfl
      rfl
    · rintro p v rfl rfl rfl rfl
      rfl
    · obtain ⟨named, hlisted, hnamed⟩ := wrongPairs_names ps fc vc pm vm
      exact ⟨named, hlisted, by rw [createFromPair_wrong hcounts hmem, hnamed]⟩
  · refine ⟨fun h => ?_, fun h => ?_, fun h => ?_⟩
    · rw [create, create, h, toBytes_text hn]
    · rw [create, create, h, optionalBytes_text hn]
    · rw [create, create, h, optionalBytes_text hn]
  · obtain ⟨k, hk⟩ := create_eq_andThen hfirst
    rw [hk]
    exact ⟨fun g hg => by rw [hg, Elaborated.signal_andThen], fun hr => by rw [hr, Elaborated.sizeTextRefused_andThen]⟩

end

section
/-! PROOFS. PARSE_SIZE (40_config.md R102): what it answers, from the shape of the text and from the shape's bytes. -/

open Sys2Proof Sys2Proof.Machine

namespace Sys2Proof.Machine

/-- The answer of PARSE_SIZE to a text that is a whole number of bytes, but perhaps for white space (R102, U12). -/
theorem parseSize_of_bytes {s : List Char} {z : SizeShape} {n : Nat} (hz : sizeShape s = some z)
    (hn : z.bytes = some n) : parseSize s = if z.spaced then .sizeTextRefused else .ok n := by
  simp only [parseSize, hz, hn]

/-- The answer of PARSE_SIZE to any other text (R102). -/
theorem parseSize_of_no_bytes {s : List Char} (h : ∀ z n, sizeShape s = some z → z.bytes ≠ some n) :
    parseSize s = .signal .invalidSize := by
  rw [parseSize]
  split
  · rfl
  · rename_i z hz
    split
    · rfl
    · rename_i n hn
      exact absurd hn (h z n hz)

/-- A size text of a whole number of bytes is read (R102). -/
theorem parseSize_of_isSizeText {s ds fs : List Char} {e n : Nat} (h : IsSizeText s ds fs e)
    (hn : n * 10 ^ fs.length = decimalValue (ds ++ fs) * 2 ^ e) : parseSize s = .ok n :=
  parseSize_of_bytes (sizeShape_of_isSizeText h) (bytes_eq_some.2 hn)

/-- Digits with a unit are the digits' value times the unit's multiplier (R102). -/
theorem parseSize_digits_unit {ds u : List Char} (hne : ds ≠ []) (hd : ∀ c ∈ ds, c.isDigit = true)
    {x : String × Nat} (hx : x ∈ sizeUnits) (hu : u.map Char.toLower = x.1.toList) :
    parseSize (ds ++ u) = .ok (decimalValue ds * 2 ^ x.2) := by
  have htext : IsSizeText (ds ++ u) ds [] x.2 := ⟨hne, by simpa using hd, u, ⟨x, hx, hu, rfl⟩, rfl⟩
  exact parseSize_of_isSizeText htext (by simp)

/-- A text with white space is not read as a number of bytes: it is refused where it is a size but for the white space (U12). -/
theorem parseSize_of_isSizeButForSpace {s : List Char} (hs : ∃ c ∈ s, c.isWhitespace = true) (h : IsSizeButForSpace s) :
    parseSize s = .sizeTextRefused := by
  obtain ⟨z, n, hz, hn⟩ := isSizeButForSpace_iff.1 h
  have hspaced : z.spaced = true := by
    obtain ⟨c, hc, hw⟩ := hs
    rw [spaced_of_sizeShape hz, List.any_eq_true]
    exact ⟨c, hc, (isSpace_eq c).trans hw⟩
  rw [parseSize_of_bytes hz hn, if_pos hspaced]

end Sys2Proof.Machine

/-- Settles O58: each row of the unit table by `parseSize_digits_unit`; a text without white space that is taken apart has
the shape, and one with white space that gives bytes is a size but for it. -/
theorem sizeTextsParseByTheUnitTable : Obligations.SizeTextsParseByTheUnitTable := by
  refine ⟨fun ds u hne hd => ⟨fun hu => ?_, fun hu => ?_, fun hu => ?_, fun hu => ?_⟩, fun text hs hno => ?_,
    fun text hs => ⟨parseSize_of_isSizeButForSpace hs, fun hno => ?_⟩⟩
  · simpa using parseSize_digits_unit hne hd (x := ("b", 0)) (by simp) hu
  · exact parseSize_digits_unit hne hd (x := ("kib", 10)) (by simp) hu
  · exact parseSize_digits_unit hne hd (x := ("mib", 20)) (by simp) hu
  · exact parseSize_digits_unit hne hd (x := ("gib", 30)) (by simp) hu
  · exact parseSize_of_no_bytes fun z _ hz _ => hno _ _ _ (isSizeText_of_sizeShape hs hz)
  · exact parseSize_of_no_bytes fun z n hz hn => hno (isSizeButForSpace_iff.2 ⟨z, n, hz, hn⟩)

/-- Settles O59: the text is taken apart into its parts, and its bytes are the exact quotient or none. -/
theorem fractionalSizeTextsParseExactly : Obligations.FractionalSizeTextsParseExactly := by
  intro text ds fs e h
  refine ⟨fun n hn => parseSize_of_isSizeText h hn, fun hno => parseSize_of_no_bytes fun z n hz hn => ?_⟩
  rw [sizeShape_of_isSizeText h, Option.some.injEq] at hz
  subst hz
  exact hno n (bytes_eq_some.1 hn)

end

section
/-! PROOFS. The codec (41_codec.md R120 to R129): the fields of a packed raw word, the frame field and the control bits after
SET_FRAME and after a load, and what the three commands answer. -/

open Sys2Proof Sys2Proof.Machine

namespace Sys2Proof.Machine

/-! ### Packing a raw word -/

/-- The packing that R121 inverts: a frame, with the five control bits at the positions of R70. -/
def packRaw (fb f : Nat) (p r m a c : Bool) : Nat :=
  f ||| p.toNat <<< fb ||| r.toNat <<< (fb + 1) ||| m.toNat <<< (fb + 2) ||| a.toNat <<< (fb + 3) ||| c.toNat <<< (fb + 4)

theorem testBit_toNat_shiftLeft (b : Bool) (n i : Nat) : (b.toNat <<< n).testBit i = (b && decide (i = n)) := by
  have hb : b.toNat = bitValue b := by cases b <;> rfl
  rw [hb, testBit_bitValue_shift]

theorem testBit_packRaw (fb f i : Nat) (p r m a c : Bool) :
    (packRaw fb f p r m a c).testBit i =
      (f.testBit i || (p && decide (i = fb)) || (r && decide (i = fb + 1)) || (m && decide (i = fb + 2)) ||
        (a && decide (i = fb + 3)) || (c && decide (i = fb + 4))) := by
  simp only [packRaw, Nat.testBit_or, testBit_toNat_shiftLeft]

section
variable {fb f : Nat} (p r m a c : Bool) (hf : f < 2 ^ fb)
include hf

theorem packRaw_mod_two_pow : packRaw fb f p r m a c % 2 ^ fb = f := by
  refine Nat.eq_of_testBit_eq fun i => ?_
  rw [Nat.testBit_mod_two_pow, testBit_packRaw]
  rcases Nat.lt_or_ge i fb with hi | hi
  · have hne : ∀ k, i ≠ fb + k := fun k => by omega
    simp [hi, hi.ne, hne]
  · simp [Nat.not_lt.2 hi, testBit_of_lt_two_pow hf hi]

/-- Above the frame field only the control bits are left. -/
theorem testBit_packRaw_add (k : Nat) :
    (packRaw fb f p r m a c).testBit (fb + k) =
      ((p && decide (k = 0)) || (r && decide (k = 1)) || (m && decide (k = 2)) || (a && decide (k = 3)) ||
        (c && decide (k = 4))) := by
  rw [testBit_packRaw, testBit_of_lt_two_pow hf (Nat.le_add_right fb k)]
  simp

end

/-! ### The frame field after SET_FRAME, and the raw word of a load -/

theorem frameField_setFrame {fb f : Nat} (raw : Nat) (hf : f < 2 ^ fb) : frameField fb (setFrame fb raw f) = f := by
  rw [← frameField_setPresent fb _ true]
  exact frameField_loadRaw raw hf

/-- SET_FRAME keeps every bit from `fb` up (R125). -/
theorem testBit_setFrame_of_le {fb f i : Nat} (raw : Nat) (hf : f < 2 ^ fb) (hi : fb ≤ i) :
    (setFrame fb raw f).testBit i = raw.testBit i := by
  rw [testBit_setFrame raw i hf, if_neg (Nat.not_lt.2 hi)]

/-- SET_PRESENT keeps every bit but `fb` (R123). -/
theorem testBit_setPresent_of_ne {fb i : Nat} (raw : Nat) (b : Bool) (hi : i ≠ fb) :
    (setPresent fb raw b).testBit i = raw.testBit i := by
  rw [testBit_setPresent, if_neg hi]

/-- The two steps of a load may be made in either order: they write different bits (R129). -/
theorem loadRaw_eq_setFrame_setPresent {fb f : Nat} (base : Nat) (hf : f < 2 ^ fb) :
    loadRaw fb base f = setFrame fb (setPresent fb base true) f := by
  refine Nat.eq_of_testBit_eq fun i => ?_
  rw [testBit_loadRaw i hf, testBit_setFrame _ i hf, testBit_setPresent]
  rcases Nat.lt_or_ge i fb with hi | hi
  · simp only [hi.ne, hi, if_true, if_false]
  · simp only [Nat.not_lt.2 hi, if_false]

/-- The formula of R129: the two fields are cleared first, and then both are put in. The frame has no bit `fb` to lose. -/
theorem loadRaw_eq_composition {fb f : Nat} (base : Nat) (hf : f < 2 ^ fb) :
    loadRaw fb base f = clearBits (clearBits base (mask fb)) (1 <<< fb) ||| f ||| (1 <<< fb) := by
  refine Nat.eq_of_testBit_eq fun i => ?_
  simp only [testBit_loadRaw i hf, Nat.testBit_or, testBit_clearBits, testBit_mask, testBit_oneBit]
  rcases Nat.lt_trichotomy i fb with hi | rfl | hi
  · simp [hi, hi.ne]
  · simp
  · simp [hi.ne', Nat.not_lt.2 hi.le, testBit_of_lt_two_pow hf hi.le]

/-! ### What a running block answers -/

theorem exec_setPresent_of_running {s : State} (h : s.fatal = false) (raw : Nat) (b : Bool) :
    exec (.setPresent raw b) s =
      .next (s.respondOk fun r => { r with raw := setPresent s.cfg.space.frameBits raw b }) :=
  unlessFatal_of_running h _

theorem exec_setFrame_of_fits {s : State} {f : Nat} (h : s.fatal = false) (hf : f < 2 ^ s.cfg.space.frameBits)
    (raw : Nat) :
    exec (.setFrame raw f) s = .next (s.respondOk fun r => { r with raw := setFrame s.cfg.space.frameBits raw f }) := by
  rw [exec, execSetFrame, unlessFatal_of_running h, frameOverflows_eq_false.2 hf, if_neg Bool.false_ne_true]

theorem exec_setFrame_of_overflow {s : State} {f : Nat} (h : s.fatal = false) (hf : s.cfg.space.frameCount ≤ f)
    (raw : Nat) : exec (.setFrame raw f) s = .next (s.signal .invalidConfiguration) := by
  have hover : frameOverflows s.cfg.space.frameBits f = true := decide_eq_true hf
  rw [exec, execSetFrame, unlessFatal_of_running h, if_pos hover]

end Sys2Proof.Machine

/-- Settles O9: a running block answers the fields of `defineDecoded`, and answering changes only the response port. -/
theorem decodeAnswersEveryField : Obligations.DecodeAnswersEveryField := fun s raw h =>
  ⟨_, exec_decode_of_running h raw, rfl, frameField_eq_mod _ _, rfl, rfl, rfl, rfl, rfl, onlyAnswers_respond s _⟩

/-- Settles O10: DECODE answers the fields of the packed word, and each is read off its bits. -/
theorem decodeInvertsPacking : Obligations.DecodeInvertsPacking := by
  intro s f p r m a c h hf
  obtain ⟨t, hx, hok, hframe, hp, hr, hm, ha, hc, -⟩ :=
    decodeAnswersEveryField s (packRaw s.cfg.space.frameBits f p r m a c) h
  have hbit := testBit_packRaw_add p r m a c hf
  refine ⟨t, hx, hok, hframe.trans (packRaw_mod_two_pow p r m a c hf), hp.trans ((hbit 0).trans ?_),
    hr.trans ((hbit 1).trans ?_), hm.trans ((hbit 2).trans ?_), ha.trans ((hbit 3).trans ?_),
    hc.trans ((hbit 4).trans ?_)⟩ <;> simp

/-- Settles O11: the bits of `setPresent`, read once from the answer and once through DECODE. -/
theorem setPresentAssignsOnlyThePresentBit : Obligations.SetPresentAssignsOnlyThePresentBit := by
  intro s raw b h
  have hkeep : ∀ i, i ≠ s.cfg.space.frameBits → (setPresent s.cfg.space.frameBits raw b).testBit i = raw.testBit i :=
    fun _ hi => testBit_setPresent_of_ne raw b hi
  exact ⟨_, exec_setPresent_of_running h raw b, rfl, presentBit_setPresent _ _ _, hkeep,
    ⟨_, _, exec_decode_of_running h _, exec_decode_of_running h _, presentBit_setPresent _ _ _,
      frameField_setPresent _ _ _, hkeep _ (by omega), hkeep _ (by omega), hkeep _ (by omega), hkeep _ (by omega)⟩,
    onlyAnswers_respond s _⟩

/-- Settles O12: the bits of `setFrame`, read once from the answer and once through DECODE. -/
theorem setFrameReplacesOnlyTheFrameField : Obligations.SetFrameReplacesOnlyTheFrameField := by
  intro s raw f h hf
  have hkeep : ∀ i, s.cfg.space.frameBits ≤ i → (setFrame s.cfg.space.frameBits raw f).testBit i = raw.testBit i :=
    fun _ hi => testBit_setFrame_of_le raw hf hi
  have hframe := frameField_setFrame raw hf
  exact ⟨_, exec_setFrame_of_fits h hf raw, rfl, (frameField_eq_mod _ _).symm.trans hframe, hkeep,
    ⟨_, _, exec_decode_of_running h _, exec_decode_of_running h _, hframe, hkeep _ le_rfl, hkeep _ (by omega),
      hkeep _ (by omega), hkeep _ (by omega), hkeep _ (by omega)⟩,
    onlyAnswers_respond s _⟩

/-- Settles O13: the overflow test of a running block signals, and a signal sets the status over the free response. -/
theorem setFrameOverflowIsAnError : Obligations.SetFrameOverflowIsAnError := fun s raw _ h hf =>
  ⟨_, exec_setFrame_of_overflow h hf raw, State.signal_resp s _, onlyAnswers_respond s _⟩

/-- Settles O14: the formula and the order of the steps bit by bit; in the other order the bits of the frame come first. -/
theorem loadedRawWordIsTheComposition : Obligations.LoadedRawWordIsTheComposition := by
  intro fb base f hf
  have hcomm := loadRaw_eq_setFrame_setPresent base hf
  refine ⟨loadRaw_eq_composition base hf, hcomm, fun i => ?_⟩
  rw [hcomm, testBit_setFrame _ i hf, testBit_setPresent]

/-- Settles O39: every command of a panicked block is the signal FATAL. -/
theorem everyCommandAnswersFatalAfterAPanic : Obligations.EveryCommandAnswersFatalAfterAPanic := fun i s h =>
  ⟨_, exec_of_panicked h i, State.signal_resp s _, onlyAnswers_respond s _⟩

end

section
/-! PROOFS. TRANSLATE (42_translate.md R140 to R147): what a running block answers to an address in range, by what the slot of
its page holds, and what an OK answer is made of. -/

open Sys2Proof Sys2Proof.Machine

namespace Sys2Proof.Machine

/-! ### The translation of an address in range, by the slot of its page -/

theorem vpnOf_eq_div (c : AddressSpaceConfig) (va : Nat) : vpnOf c va = va / 2 ^ c.offsetBits := by
  rw [vpnOf, Nat.shiftRight_eq_div_pow]

theorem translateVa_of_lt {c : AddressSpaceConfig} {va : Nat} (hva : va < 2 ^ c.virtualAddressBits) (pt : PageTable) :
    translateVa c pt va = translateInRange c pt va :=
  if_pos (addressInRange_iff.2 ⟨Int.natCast_nonneg va, by exact_mod_cast hva⟩)

/-- What a slot can hold, as TRANSLATE tells it apart (R143, R144). -/
theorem slot_cases (c : AddressSpaceConfig) (pt : PageTable) (v : Nat) :
    ptRead pt v = none ∨
    (∃ e, ptRead pt v = some e ∧ e.present = false) ∨
    (∃ e, ptRead pt v = some e ∧ e.present = true ∧ c.frameCount ≤ e.frame) ∨
    (∃ e, ptRead pt v = some e ∧ e.present = true ∧ e.frame < c.frameCount) := by
  cases ptRead pt v with
  | none => exact .inl rfl
  | some e =>
    cases hp : e.present with
    | false => exact .inr (.inl ⟨e, rfl, hp⟩)
    | true =>
      rcases Nat.lt_or_ge e.frame c.frameCount with hf | hf
      · exact .inr (.inr (.inr ⟨e, rfl, hp, hf⟩))
      · exact .inr (.inr (.inl ⟨e, rfl, hp, hf⟩))

section
variable {c : AddressSpaceConfig} {pt : PageTable} {va v : Nat} {e : Entry}
  (hva : va < 2 ^ c.virtualAddressBits) (hv : va / 2 ^ c.offsetBits = v)
include hva hv

theorem translateVa_of_absent (he : ptRead pt v = none) : translateVa c pt va = .pageFault v none := by
  simp [translateVa_of_lt hva, translateInRange, vpnOf_eq_div, hv, he]

theorem translateVa_of_not_present (he : ptRead pt v = some e) (hp : e.present = false) :
    translateVa c pt va = .pageFault v (some e) := by
  simp [translateVa_of_lt hva, translateInRange, vpnOf_eq_div, hv, he, hp]

theorem translateVa_of_corrupt (he : ptRead pt v = some e) (hp : e.present = true) (hf : c.frameCount ≤ e.frame) :
    translateVa c pt va = .invalidConfiguration := by
  simp [translateVa_of_lt hva, translateInRange, vpnOf_eq_div, hv, he, hp, hf]

theorem translateVa_of_mapped (he : ptRead pt v = some e) (hp : e.present = true) (hf : e.frame < c.frameCount) :
    translateVa c pt va = .ok
      { vpn := v, offset := va % 2 ^ c.offsetBits, frame := e.frame,
        pa := e.frame * 2 ^ c.offsetBits + va % 2 ^ c.offsetBits, va := va, raw := e.raw } := by
  simp [translateVa_of_lt hva, translateInRange, vpnOf_eq_div, hv, he, hp, Nat.not_le.2 hf, ← offsetOf_eq_mod,
    physicalAddress_eq_add (offsetOf_lt c va)]

end

/-! ### What TRANSLATE answers -/

theorem exec_translate_of_running {s : State} (h : s.fatal = false) (va : Int) :
    exec (.translate va) s = .next (s.respondTranslation (translateVa s.cfg.space s.pt va)) :=
  unlessFatal_of_running h _

@[simp] theorem respondTranslation_ok (s : State) (r : TranslationResult) :
    s.respondTranslation (.ok r) = s.respondOk r.define := rfl

@[simp] theorem respondTranslation_pageFault (s : State) (v : Nat) (stale : Option Entry) :
    s.respondTranslation (.pageFault v stale) = s.respond (definePageFault v stale) := rfl

@[simp] theorem respondTranslation_addressOutOfRange (s : State) :
    s.respondTranslation .addressOutOfRange = s.signal .addressOutOfRange := rfl

@[simp] theorem respondTranslation_invalidConfiguration (s : State) :
    s.respondTranslation .invalidConfiguration = s.signal .invalidConfiguration := rfl

/-- The answer OK defines the components of the translation (R145). -/
theorem gives_respondOk_define (s : State) (r : TranslationResult) : Gives (s.respondOk r.define).resp r :=
  ⟨rfl, rfl, rfl, rfl, rfl, rfl, rfl⟩

/-- The status ADDRESS_OUT_OF_RANGE belongs to one end of a translation (R141). -/
theorem respondTranslation_status_addressOutOfRange (s : State) (r : Translation) :
    (s.respondTranslation r).resp.status = .addressOutOfRange ↔ r = .addressOutOfRange := by
  cases r <;> simp [definePageFault_status]

/-- The range check alone leads to that end (R141). -/
theorem translateVa_eq_addressOutOfRange {c : AddressSpaceConfig} {pt : PageTable} {va : Int} :
    translateVa c pt va = .addressOutOfRange ↔ addressInRange c va = false := by
  rcases translate_cases c pt va with ⟨hr, htr⟩ | ⟨hr, -, htr⟩ | ⟨e, hr, -, -, htr⟩ | ⟨e, hr, -, -, -, htr⟩ |
      ⟨e, hr, -, -, -, htr⟩ <;> simp [hr, htr]

theorem addressInRange_eq_false {c : AddressSpaceConfig} {va : Int} :
    addressInRange c va = false ↔ va < 0 ∨ va > 2 ^ c.virtualAddressBits - 1 := by
  rw [Bool.eq_false_iff, ne_eq, addressInRange_iff]
  omega

/-- An answer OK is the result of a translation that succeeded (R145). -/
theorem translated_of_status_ok {s t : State} {va : Int} (h : exec (.translate va) s = .next t)
    (hok : t.resp.status = .ok) : ∃ r, translateVa s.cfg.space s.pt va = .ok r ∧ Gives t.resp r := by
  cases hf : s.fatal with
  | true =>
    rw [exec_of_panicked hf, next_inj] at h
    subst h
    cases hok
  | false =>
    rw [exec_translate_of_running hf, next_inj] at h
    subst h
    cases htr : translateVa s.cfg.space s.pt va with
    | ok r => exact ⟨r, rfl, gives_respondOk_define s r⟩
    | pageFault v stale => simp [htr, definePageFault_status] at hok
    | addressOutOfRange => rw [htr] at hok; cases hok
    | invalidConfiguration => rw [htr] at hok; cases hok

/-- TRANSLATE answers a corrupt entry by the signal (R144). -/
theorem exec_translate_of_invalidConfiguration {s : State} (h : s.fatal = false) {va : Int}
    (htr : translateVa s.cfg.space s.pt va = .invalidConfiguration) :
    exec (.translate va) s = .next (s.signal .invalidConfiguration) := by
  rw [exec_translate_of_running h, htr, respondTranslation_invalidConfiguration]

/-- RESOLVE passes the signal of a corrupt entry on (R193). -/
theorem exec_resolve_of_invalidConfiguration {s : State} (h : s.fatal = false) {va : Int}
    (htr : translateVa s.cfg.space s.pt va = .invalidConfiguration) :
    exec (.resolve va) s = .next (s.signal .invalidConfiguration) := by
  rw [exec, execResolve, unlessFatal_of_running h, htr]

/-- A command whose run only answers does so in a panicked block too (R217). -/
theorem unlessFatal_onlyAnswers {s t : State} (h : OnlyAnswers s t) :
    ∃ u, unlessFatal s (.next t) = .next u ∧ OnlyAnswers s u := by
  cases hf : s.fatal with
  | true => exact ⟨_, unlessFatal_of_panicked hf _, onlyAnswers_respond s _⟩
  | false => exact ⟨t, unlessFatal_of_running hf _, h⟩

/-- SET_FRAME only answers, whether or not the frame fits (R124, R126). -/
theorem execSetFrame_onlyAnswers (s : State) (raw f : Nat) :
    ∃ u, execSetFrame raw f s = .next u ∧ OnlyAnswers s u := by
  unfold execSetFrame
  split <;> exact unlessFatal_onlyAnswers (onlyAnswers_respond s _)

end Sys2Proof.Machine

/-- Settles O15: a mapped page's translation is OK, and TRANSLATE answers it. -/
theorem translateAnswersThePhysicalAddress : Obligations.TranslateAnswersThePhysicalAddress := by
  intro s va e h hva he hp hf
  refine ⟨_, exec_translate_of_running h va, ?_, onlyAnswers_respondTranslation s _⟩
  rw [translateVa_of_mapped hva rfl he hp hf]
  exact gives_respondOk_define s _

/-- Settles O16: the status names the end of the translation, and the range check alone decides that end. -/
theorem addressOutOfRangeExactlyOutsideTheRange : Obligations.AddressOutOfRangeExactlyOutsideTheRange := by
  intro s va h
  have hout := (translateVa_eq_addressOutOfRange (pt := s.pt)).trans (addressInRange_eq_false (c := s.cfg.space) (va := va))
  refine ⟨_, exec_translate_of_running h va, onlyAnswers_respondTranslation s _,
    (respondTranslation_status_addressOutOfRange s _).trans hout, fun hva => ?_⟩
  rw [hout.2 hva, respondTranslation_addressOutOfRange, State.signal_resp]

/-- Settles O17: one case for each thing that the slot can hold. -/
theorem pageFaultExactlyWhenAbsentOrNotPresent : Obligations.PageFaultExactlyWhenAbsentOrNotPresent := by
  intro s va h hva
  refine ⟨_, exec_translate_of_running h va, onlyAnswers_respondTranslation s _, ?_⟩
  rcases slot_cases s.cfg.space s.pt (va / 2 ^ s.cfg.space.offsetBits) with he | ⟨e, he, hp⟩ | ⟨e, he, hp, hf⟩ |
      ⟨e, he, hp, hf⟩
  · rw [translateVa_of_absent hva rfl he]
    simp [he, definePageFault]
  · rw [translateVa_of_not_present hva rfl he hp]
    simp [he, hp, definePageFault]
  · rw [translateVa_of_corrupt hva rfl he hp hf]
    simp [he, hp]
  · rw [translateVa_of_mapped hva rfl he hp hf]
    simp [he, hp]

/-- Settles O18: the translation ends in the signal, which TRANSLATE answers and RESOLVE passes on. -/
theorem corruptEntryIsInvalidConfiguration : Obligations.CorruptEntryIsInvalidConfiguration := by
  intro s va e h hva he hp hf
  have htr := translateVa_of_corrupt hva rfl he hp hf
  exact ⟨⟨_, exec_translate_of_invalidConfiguration h htr, State.signal_resp s _, onlyAnswers_respond s _⟩,
    ⟨_, exec_resolve_of_invalidConfiguration h htr, State.signal_resp s _, onlyAnswers_respond s _⟩⟩

/-- Settles O19: each of the four commands only answers, so the store, and with it every slot, is the same. -/
theorem readOnlyCommandsAlwaysAnswerAndChangeNothing : Obligations.ReadOnlyCommandsAlwaysAnswerAndChangeNothing := by
  intro s va raw f value i hi
  have hanswers : ∃ t, exec i s = .next t ∧ OnlyAnswers s t := by
    simp only [List.mem_cons, List.not_mem_nil, or_false] at hi
    rcases hi with rfl | rfl | rfl | rfl
    · exact unlessFatal_onlyAnswers (onlyAnswers_respondTranslation s _)
    · exact unlessFatal_onlyAnswers (onlyAnswers_respond s _)
    · exact unlessFatal_onlyAnswers (onlyAnswers_respond s _)
    · exact execSetFrame_onlyAnswers s raw f
  obtain ⟨t, hx, hsame⟩ := hanswers
  have ⟨⟨_, hpt, _⟩, _⟩ := hsame
  exact ⟨t, hx, hsame, fun a => by rw [hpt]⟩

/-- Settles O20: an OK answer is the result of a translation, and the offset is the low part of the address. -/
theorem translationRecombines : Obligations.TranslationRecombines := by
  intro s t va h hok
  obtain ⟨r, htr, -, hvpn, hoff, hframe, hpa, hva, -⟩ := translated_of_status_ok h hok
  rcases translate_cases s.cfg.space s.pt va with ⟨-, heq⟩ | ⟨-, -, heq⟩ | ⟨_, -, -, -, heq⟩ | ⟨_, -, -, -, -, heq⟩ |
      ⟨e, hr, -, -, hf, heq⟩ <;> rw [heq] at htr <;> cases htr
  obtain ⟨h0, -⟩ := addressInRange_iff.1 hr
  have hlt := offsetOf_lt s.cfg.space va.toNat
  rw [hvpn, hoff, hframe, hpa, hva]
  refine ⟨Int.toNat_of_nonneg h0, rfl, ?_, hlt, vpnOf_lt hr, hf, physicalAddress_lt hf hlt⟩
  calc va.toNat = vpnOf s.cfg.space va.toNat * 2 ^ s.cfg.space.offsetBits + offsetOf s.cfg.space va.toNat := by
        rw [vpnOf_eq_div, offsetOf_eq_mod, Nat.div_add_mod']
    _ = _ := (physicalAddress_eq_add hlt).symm

/-- Settles O21: the answer is decided by what the slot of the common page holds; only the offset is the address's own. -/
theorem addressesOfOnePageAnswerAlike : Obligations.AddressesOfOnePageAnswerAlike := by
  intro s t u va wa h hva hwa hpage ht hu
  rw [exec_translate_of_running h, next_inj] at ht hu
  subst ht hu
  rcases slot_cases s.cfg.space s.pt (wa / 2 ^ s.cfg.space.offsetBits) with he | ⟨e, he, hp⟩ | ⟨e, he, hp, hf⟩ |
      ⟨e, he, hp, hf⟩
  · rw [translateVa_of_absent hva hpage he, translateVa_of_absent hwa rfl he]
    simp [definePageFault]
  · rw [translateVa_of_not_present hva hpage he hp, translateVa_of_not_present hwa rfl he hp]
    simp [definePageFault]
  · rw [translateVa_of_corrupt hva hpage he hp hf, translateVa_of_corrupt hwa rfl he hp hf]
    simp
  · rw [translateVa_of_mapped hva hpage he hp hf, translateVa_of_mapped hwa rfl he hp hf]
    simp [TranslationResult.define]

end

section
/-! PROOFS. The recency order (00_scope.md R14, 43_lru.md R160 to R162): moving a page to the most-recent end, and TOUCH. -/

open Sys2Proof Sys2Proof.Machine

namespace Sys2Proof.Machine

/-! ### Moving a key to the end -/

section
variable {α : Type}

/-- A key that is not in the list moves nothing (R161). -/
theorem moveToBack_of_not_mem {l : List (Nat × α)} {k : Nat} (h : k ∉ l.map Prod.fst) : moveToBack l k = l := by
  rw [moveToBack, findKey_eq_none.2 h]

theorem findKey_append_cons_self {l : List (Nat × α)} {k : Nat} (h : k ∉ l.map Prod.fst) (a : α) (m : List (Nat × α)) :
    findKey (l ++ (k, a) :: m) k = some a := by
  rw [findKey_append, findKey_eq_none.2 h, Option.none_or, findKey_cons, if_pos rfl]

theorem eraseKey_append_cons_self {l : List (Nat × α)} {k : Nat} (h : k ∉ l.map Prod.fst) (a : α) (m : List (Nat × α)) :
    eraseKey (l ++ (k, a) :: m) k = l ++ m := by
  induction l with
  | nil => rw [List.nil_append, eraseKey_cons, if_pos rfl, List.nil_append]
  | cons x l ih =>
    obtain ⟨v, b⟩ := x
    rw [List.map_cons, List.mem_cons, not_or] at h
    obtain ⟨hne, hl⟩ := h
    rw [List.cons_append, eraseKey_cons, if_neg (Ne.symm hne), ih hl, List.cons_append]

/-- The first pair of the key goes to the end; the others keep their order (R160). -/
theorem moveToBack_append_cons {l : List (Nat × α)} {k : Nat} (h : k ∉ l.map Prod.fst) (a : α) (m : List (Nat × α)) :
    moveToBack (l ++ (k, a) :: m) k = l ++ m ++ [(k, a)] := by
  rw [moveToBack, findKey_append_cons_self h, eraseKey_append_cons_self h]

/-- A key of the list has a first pair. -/
theorem exists_append_cons_of_mem_keys {l : List (Nat × α)} {k : Nat} (h : k ∈ l.map Prod.fst) :
    ∃ older a newer, l = older ++ (k, a) :: newer ∧ k ∉ older.map Prod.fst := by
  obtain ⟨olderKeys, newerKeys, heq, hfirst⟩ := List.eq_append_cons_of_mem h
  obtain ⟨older, rest, rfl, rfl, hrest⟩ := List.map_eq_append_iff.1 heq
  obtain ⟨⟨_, a⟩, newer, rfl, rfl, -⟩ := List.map_eq_cons_iff.1 hrest
  exact ⟨older, a, newer, rfl, hfirst⟩

/-- Everything `moveToBack` can do. -/
theorem moveToBack_cases (l : List (Nat × α)) (k : Nat) :
    moveToBack l k = l ∨
      ∃ older a newer, l = older ++ (k, a) :: newer ∧ moveToBack l k = older ++ newer ++ [(k, a)] := by
  by_cases h : k ∈ l.map Prod.fst
  · obtain ⟨older, a, newer, rfl, hfirst⟩ := exists_append_cons_of_mem_keys h
    exact .inr ⟨older, a, newer, rfl, moveToBack_append_cons hfirst a newer⟩
  · exact .inl (moveToBack_of_not_mem h)

end

/-! ### TOUCH -/

theorem touch_of_not_resident {s : State} {v : Nat} (h : v ∉ s.resident.map Prod.fst) : s.touch v = s := by
  rw [State.touch, moveToBack_of_not_mem h]
  rfl

theorem exec_touch_of_running {s : State} (h : s.fatal = false) (v : Nat) :
    exec (.touch v) s = .next ((s.touch v).respondOk id) :=
  unlessFatal_of_running h _

/-- A number that is no possible key, such as a negative one, is only answered (R161). -/
theorem exec_touch_of_no_key {s : State} (h : s.fatal = false) {vpn : Int} (hk : keyOperand vpn = none) :
    exec (.touch vpn) s = .next (s.respondOk id) := by
  rw [exec, execTouch, unlessFatal_of_running h, hk]

end Sys2Proof.Machine

/-- Settles O22: TOUCH writes `resident` alone, and its first pair of the page goes to the end. -/
theorem touchMovesAResidentPageToTheEnd : Obligations.TouchMovesAResidentPageToTheEnd := by
  intro s v f older newer h hres hfirst
  refine ⟨_, exec_touch_of_running h v, rfl, ?_, rfl, rfl, fun _ => rfl, rfl, rfl, rfl⟩
  rw [State.respondOk_resident, State.touch_resident, hres, moveToBack_append_cons hfirst]

/-- Settles O23: a number is no key at all, or a key that `moveToBack` does not find. -/
theorem touchOfANonResidentNumberIsANoOp : Obligations.TouchOfANonResidentNumberIsANoOp := by
  intro s vpn h hno
  cases hk : keyOperand vpn with
  | none => exact ⟨_, exec_touch_of_no_key h hk, rfl, onlyAnswers_respond s _⟩
  | some v =>
    obtain rfl := keyOperand_eq_some hk
    have habsent : v ∉ s.resident.map Prod.fst := fun hv => by
      obtain ⟨x, hx, rfl⟩ := List.mem_map.1 hv
      exact hno x hx rfl
    refine ⟨_, exec_touch_of_running h v, rfl, ?_⟩
    rw [touch_of_not_resident habsent]
    exact onlyAnswers_respond s _

end

section
/-! PROOFS. HANDLE_FAULT (43_lru.md R163 to R170): frame acquisition and the handler by the state of the two structures, what a
load writes, and what the command answers. -/

open Sys2Proof Sys2Proof.Machine

namespace Sys2Proof.Machine

/-! ### Frame acquisition, by the state of the two structures -/

section
variable {s : State} {u f : Nat} {rest : List (Nat × Nat)}

theorem acquireFrame_of_free {frames : List Nat} (hfree : s.freeFrames = f :: frames) :
    acquireFrame s = .frame f (s.withFreeFrames frames) := by
  rw [acquireFrame, hfree]

theorem acquireFrame_of_empty (hfree : s.freeFrames = []) (hres : s.resident = []) : acquireFrame s = .panicked s := by
  rw [acquireFrame, hfree]
  simp only [evictOldest, hres]

theorem acquireFrame_of_victim {e : Entry} (hfree : s.freeFrames = []) (hres : s.resident = (u, f) :: rest)
    (he : ptRead s.pt u = some e) :
    acquireFrame s = .frame f ((s.withResident rest).withPt (ptWrite s.pt u (evictedEntry s.cfg.space e))) := by
  rw [acquireFrame, hfree]
  simp only [evictOldest, hres, he]

theorem acquireFrame_of_victim_without_entry (hfree : s.freeFrames = []) (hres : s.resident = (u, f) :: rest)
    (he : ptRead s.pt u = none) : acquireFrame s = .panicked (s.withResident rest) := by
  rw [acquireFrame, hfree]
  simp only [evictOldest, hres, he]

end

/-- The victim is not the page that is being loaded, which is not resident (R164). -/
theorem victim_ne_of_not_resident {s : State} {u v f : Nat} {rest : List (Nat × Nat)}
    (hres : s.resident = (u, f) :: rest) (hv : v ∉ s.resident.map Prod.fst) : u ≠ v := by
  rintro rfl
  rw [hres] at hv
  exact hv List.mem_cons_self

/-! ### The handler -/

section
variable {s t : State} {v f : Nat}

theorem handleFault_of_resident (h : v ∈ s.resident.map Prod.fst) : handleFault s v = .refused :=
  if_pos (findKey_isSome.2 h)

/-- The handler refuses only a resident page (R164). -/
theorem mem_resident_of_handleFault_refused (h : handleFault s v = .refused) : v ∈ s.resident.map Prod.fst := by
  rcases handleFault_cases s v with ⟨hres, -⟩ | ⟨t, -, -, hend⟩ | ⟨f, t, -, -, -, hend⟩ | ⟨f, t, -, -, -, hend⟩
  · exact findKey_isSome.1 hres
  all_goals rw [hend] at h; cases h

theorem handleFault_of_acquire_panicked (hv : v ∉ s.resident.map Prod.fst) (ha : acquireFrame s = .panicked t) :
    handleFault s v = .panicked t := by
  rw [handleFault, findKey_eq_none.2 hv, ha]
  rfl

/-- An acquired frame that does not fit is the third impossible path (R169). -/
theorem handleFault_of_overflow (hv : v ∉ s.resident.map Prod.fst) (ha : acquireFrame s = .frame f t)
    (hf : t.cfg.space.frameCount ≤ f) : handleFault s v = .panicked t := by
  rw [handleFault, findKey_eq_none.2 hv, ha]
  exact if_pos (decide_eq_true hf)

end

/-! ### The entry a load writes -/

/-- With no stale entry the raw word is the frame and the present bit (R167). -/
theorem loadRaw_zero {fb f : Nat} (hf : f < 2 ^ fb) : loadRaw fb 0 f = f + 2 ^ fb := by
  have hclear : ∀ m, clearBits 0 m = 0 := fun m => by simp [clearBits]
  rw [loadRaw_eq_composition 0 hf, hclear, hclear, Nat.zero_or, Nat.one_shiftLeft, Nat.or_comm, Nat.add_comm]
  simpa using (Nat.two_pow_add_eq_or_of_lt hf 1).symm

theorem loadedEntry_of_absent {c : AddressSpaceConfig} {pt : PageTable} {v f : Nat} (he : ptRead pt v = none)
    (hf : f < c.frameCount) :
    loadedEntry c (loadBase (ptRead pt v)) f = { present := true, frame := f, raw := f + 2 ^ c.frameBits } := by
  rw [he]
  exact congrArg (Entry.mk true f) (loadRaw_zero hf)

theorem loadedEntry_of_stale {pt : PageTable} {v : Nat} {e : Entry} (he : ptRead pt v = some e)
    (c : AddressSpaceConfig) (f : Nat) :
    loadedEntry c (loadBase (ptRead pt v)) f = { present := true, frame := f, raw := loadRaw c.frameBits e.raw f } := by
  rw [he]
  rfl

/-! ### What the command answers -/

theorem slotOperand_of_lt {c : AddressSpaceConfig} {v : Nat} (h : v < c.virtualPageCount) : slotOperand c v = some v :=
  if_pos ⟨Int.natCast_nonneg v, Int.ofNat_lt.2 h⟩

section
variable {s : State} (h : s.fatal = false)
include h

theorem exec_handleFault_of_no_slot {vpn : Int} (hv : slotOperand s.cfg.space vpn = none) :
    exec (.handleFault vpn) s = .next (s.signal .addressOutOfRange) := by
  rw [exec, execHandleFault, unlessFatal_of_running h, hv]

variable {u : State} {v f : Nat} (hv : v < s.cfg.space.virtualPageCount)
include hv

theorem exec_handleFault_of_loaded (hu : handleFault s v = .loaded f u) :
    exec (.handleFault v) s = .next (u.respondOk fun r => { r with frame := f }) := by
  rw [exec, execHandleFault, unlessFatal_of_running h, slotOperand_of_lt hv]
  simp only [hu]

theorem exec_handleFault_of_panicked (hu : handleFault s v = .panicked u) : exec (.handleFault v) s = .next u.panic := by
  rw [exec, execHandleFault, unlessFatal_of_running h, slotOperand_of_lt hv]
  simp only [hu]

theorem exec_handleFault_of_resident (hres : v ∈ s.resident.map Prod.fst) :
    exec (.handleFault v) s = .refused (.pageAlreadyResident v) := by
  rw [exec, execHandleFault, unlessFatal_of_running h, slotOperand_of_lt hv]
  simp only [handleFault_of_resident hres]

end

/-- RESOLVE of an address that faults takes the fault of its page (R194). -/
theorem exec_resolve_of_pageFault {s : State} (h : s.fatal = false) {va : Int} {v : Nat} {stale : Option Entry}
    (htr : translateVa s.cfg.space s.pt va = .pageFault v stale) : exec (.resolve va) s = takePageFault s va v := by
  rw [exec, execResolve, unlessFatal_of_running h, htr]

theorem takePageFault_of_resident {s : State} {v : Nat} (hres : v ∈ s.resident.map Prod.fst) (va : Int) :
    takePageFault s va v = .refused (.pageAlreadyResident v) := by
  rw [takePageFault, handleFault_of_resident hres]

/-- An address in range faults when the entry of its page, if there is one, is not present (R143). -/
theorem translateVa_of_no_present_entry {c : AddressSpaceConfig} {pt : PageTable} {va v : Nat}
    (hva : va < 2 ^ c.virtualAddressBits) (hv : va / 2 ^ c.offsetBits = v)
    (hno : ∀ e, ptRead pt v = some e → e.present = false) : translateVa c pt va = .pageFault v (ptRead pt v) := by
  cases he : ptRead pt v with
  | none => exact translateVa_of_absent hva hv he
  | some e => exact translateVa_of_not_present hva hv he (hno e he)

/-! ### The commands that can be refused -/

/-- A command ends in a next state, or is refused for the resident page that its operand names. -/
def AnswersOrIsRefused (i : Instr) (s : State) : Prop :=
  (∃ t, exec i s = .next t) ∨
  ∃ v : Nat, v ∈ s.resident.map Prod.fst ∧ exec i s = .refused (.pageAlreadyResident v) ∧
    (i = .handleFault v ∨ ∃ va : Int, i = .resolve va ∧ va.toNat / 2 ^ s.cfg.space.offsetBits = v)

theorem handleFault_answersOrIsRefused {s : State} (h : s.fatal = false) (vpn : Int) :
    AnswersOrIsRefused (.handleFault vpn) s := by
  cases hslot : slotOperand s.cfg.space vpn with
  | none => exact .inl ⟨_, exec_handleFault_of_no_slot h hslot⟩
  | some v =>
    obtain ⟨rfl, hv⟩ := slotOperand_eq_some hslot
    cases hu : handleFault s v with
    | loaded f u => exact .inl ⟨_, exec_handleFault_of_loaded h hv hu⟩
    | panicked u => exact .inl ⟨_, exec_handleFault_of_panicked h hv hu⟩
    | refused =>
      have hres := mem_resident_of_handleFault_refused hu
      exact .inr ⟨v, hres, exec_handleFault_of_resident h hv hres, .inl rfl⟩

theorem takePageFault_answersOrIsRefused {s : State} (h : s.fatal = false) {va : Int} {stale : Option Entry}
    (htr : translateVa s.cfg.space s.pt va = .pageFault (vpnOf s.cfg.space va.toNat) stale) :
    AnswersOrIsRefused (.resolve va) s := by
  rw [AnswersOrIsRefused, exec_resolve_of_pageFault h htr]
  cases hu : handleFault s (vpnOf s.cfg.space va.toNat) with
  | loaded f u => exact .inl ⟨_, by rw [takePageFault, hu]⟩
  | panicked u => exact .inl ⟨_, by rw [takePageFault, hu]⟩
  | refused =>
    have hres := mem_resident_of_handleFault_refused hu
    exact .inr ⟨_, hres, takePageFault_of_resident hres va, .inr ⟨va, rfl, (vpnOf_eq_div _ _).symm⟩⟩

theorem resolve_answersOrIsRefused {s : State} (h : s.fatal = false) (va : Int) : AnswersOrIsRefused (.resolve va) s := by
  rcases translate_cases s.cfg.space s.pt va with ⟨-, htr⟩ | ⟨-, -, htr⟩ | ⟨_, -, -, -, htr⟩ | ⟨_, -, -, -, -, htr⟩ |
      ⟨_, -, -, -, -, htr⟩
  · exact .inl ⟨_, by rw [exec, execResolve, unlessFatal_of_running h, htr]⟩
  · exact takePageFault_answersOrIsRefused h htr
  · exact takePageFault_answersOrIsRefused h htr
  · exact .inl ⟨_, exec_resolve_of_invalidConfiguration h htr⟩
  · exact .inl ⟨_, by rw [exec, execResolve, unlessFatal_of_running h, htr]⟩

end Sys2Proof.Machine

/-- Settles O24: such a number has no slot. -/
theorem handleFaultOutOfRange : Obligations.HandleFaultOutOfRange := by
  intro s vpn h hout
  have hslot : slotOperand s.cfg.space vpn = none := if_neg (by omega)
  exact ⟨_, exec_handleFault_of_no_slot h hslot, State.signal_resp s _, onlyAnswers_respond s _⟩

/-- Settles O25: HANDLE_FAULT and the fault inside RESOLVE both lead to the handler, which refuses a resident page. -/
theorem faultOnAResidentPageIsRefused : Obligations.FaultOnAResidentPageIsRefused := by
  intro s v h hv hres
  refine ⟨exec_handleFault_of_resident h hv hres, fun va hva hpage hno => ?_⟩
  rw [exec_resolve_of_pageFault h (translateVa_of_no_present_entry hva hpage hno), takePageFault_of_resident hres]

/-- Settles O26: the acquired frame is the front of the queue, and the load writes the slot of the page alone. -/
theorem handleFaultTakesTheFirstFreeFrame : Obligations.HandleFaultTakesTheFirstFreeFrame := by
  intro s v f rest h hv habsent hfree hf
  have hload := handleFault_eq (findKey_eq_none.2 habsent) (acquireFrame_of_free hfree) hf
  exact ⟨_, exec_handleFault_of_loaded h hv hload, rfl, rfl, rfl, rfl,
    fun he => (ptRead_ptWrite_self _ _ _).trans (congrArg some (loadedEntry_of_absent he hf)),
    fun e he => (ptRead_ptWrite_self _ _ _).trans (congrArg some (loadedEntry_of_stale he _ _)),
    fun a ha => ptRead_ptWrite_of_ne ha _ _, rfl, h, rfl⟩

/-- Settles O27: the acquired frame is the victim's; the eviction writes the slot of the victim, which is another page, and
the load then the slot of the page. -/
theorem handleFaultEvictsTheOldestPage : Obligations.HandleFaultEvictsTheOldestPage := by
  intro s v u f rest e h hv habsent hfree hres he hf
  have huv := victim_ne_of_not_resident hres habsent
  have hload := handleFault_eq (findKey_eq_none.2 habsent) (acquireFrame_of_victim hfree hres he) hf
  refine ⟨_, exec_handleFault_of_loaded h hv hload, rfl, rfl, hfree, rfl,
    ⟨evictedEntry s.cfg.space e, ?_, rfl, rfl, presentBit_setPresent _ _ _, fun i hi => testBit_setPresent_of_ne _ _ hi⟩,
    fun hs => (ptRead_ptWrite_self _ _ _).trans (congrArg some (loadedEntry_of_absent hs hf)),
    fun d hd => (ptRead_ptWrite_self _ _ _).trans (congrArg some (loadedEntry_of_stale hd _ _)),
    fun a hav hau => (ptRead_ptWrite_of_ne hav _ _).trans (ptRead_ptWrite_of_ne hau _ _), rfl, h, rfl⟩
  exact (ptRead_ptWrite_of_ne huv _ _).trans (ptRead_ptWrite_self _ _ _)

/-- Settles O28: on each of the paths the handler ends in a panic, in the state that frame acquisition left. -/
theorem handleFaultImpossiblePathsPanic : Obligations.HandleFaultImpossiblePathsPanic := by
  intro s v h hv habsent
  refine ⟨fun hfree hres => ?_, fun u f rest hfree hres he => ?_, fun f rest hfree hf => ?_,
    fun u f rest e hfree hres he hf => ?_⟩
  · have hu := handleFault_of_acquire_panicked habsent (acquireFrame_of_empty hfree hres)
    exact ⟨_, exec_handleFault_of_panicked h hv hu, rfl, rfl, rfl, hres, hfree, rfl, rfl⟩
  · have hu := handleFault_of_acquire_panicked habsent (acquireFrame_of_victim_without_entry hfree hres he)
    exact ⟨_, exec_handleFault_of_panicked h hv hu, rfl, rfl, rfl, rfl, hfree, rfl, rfl⟩
  · have hu := handleFault_of_overflow habsent (acquireFrame_of_free hfree) hf
    exact ⟨_, exec_handleFault_of_panicked h hv hu, rfl, rfl, rfl, rfl, rfl, rfl, rfl⟩
  · have hu := handleFault_of_overflow habsent (acquireFrame_of_victim hfree hres he) hf
    exact ⟨_, exec_handleFault_of_panicked h hv hu, rfl, rfl, ptRead_ptWrite_self _ _ _,
      fun a ha => ptRead_ptWrite_of_ne ha _ _, rfl, hfree, rfl, rfl⟩

/-- Settles O7: a panicked block answers, and so do the commands that do not lead to the handler; HANDLE_FAULT and RESOLVE
end as the handler does. -/
theorem everyCommandAnswersOrIsRefusedForAResidentPage :
    Obligations.EveryCommandAnswersOrIsRefusedForAResidentPage := by
  intro i s
  show AnswersOrIsRefused i s
  cases h : s.fatal with
  | true => exact .inl ⟨_, exec_of_panicked h i⟩
  | false =>
    cases i with
    | translate va => exact .inl ⟨_, exec_translate_of_running h va⟩
    | resolve va => exact resolve_answersOrIsRefused h va
    | touch vpn =>
      cases hk : keyOperand vpn with
      | none => exact .inl ⟨_, exec_touch_of_no_key h hk⟩
      | some v => exact .inl ⟨_, keyOperand_eq_some hk ▸ exec_touch_of_running h v⟩
    | handleFault vpn => exact handleFault_answersOrIsRefused h vpn
    | decode raw => exact .inl ⟨_, exec_decode_of_running h raw⟩
    | setPresent raw value => exact .inl ⟨_, exec_setPresent_of_running h raw value⟩
    | setFrame raw f =>
      obtain ⟨t, ht, -⟩ := execSetFrame_onlyAnswers s raw f
      exact .inl ⟨t, ht⟩

end

section
/-! PROOFS. Eviction (43_lru.md R162, R165, R166, R173 to R175; 70_reset_and_hazards.md R252): which page can leave `resident`,
what becomes of its frame and of its entry, and what every command keeps. -/

open Sys2Proof Sys2Proof.Machine

namespace Sys2Proof.Machine

/-! ### The free frames -/

/-- A command takes at most the front of the queue, and adds nothing to it (R175). -/
theorem exec_freeFrames {i : Instr} {s t : State} (h : exec i s = .next t) :
    t.freeFrames = s.freeFrames ∨ ∃ f, s.freeFrames = f :: t.freeFrames := by
  cases exec_effect h with
  | answers ha _ =>
    obtain ⟨⟨-, -, -, hfree, -⟩, -⟩ := ha
    exact .inl hfree
  | touches _ _ same _ _ _ =>
    obtain ⟨-, -, hfree, -⟩ := same
    exact .inl hfree
  | loads v f u handled same _ _ _ _ _ =>
    obtain ⟨-, -, -, -, -, hframe, -⟩ := handleFault_loaded handled
    obtain ⟨-, -, -, hfree, -⟩ := same
    rw [hfree]
    rcases hframe with ⟨hfront, -⟩ | ⟨hnil, hnil', -⟩
    · exact .inr ⟨f, hfront⟩
    · exact .inl (hnil'.trans hnil.symm)
  | panics v u handled eq _ _ _ =>
    obtain ⟨-, -, -, -, hfree, -⟩ := handleFault_panicked handled
    rw [eq, State.panic_freeFrames]
    exact hfree

/-! ### The page that leaves `resident` -/

/-- What is left of a list without its first element lacks only that element. -/
theorem eq_head_of_not_mem_tail {α : Type} {x y : α} {l : List α} (hx : x ∈ y :: l) (hgone : x ∉ l) : x = y :=
  (List.mem_cons.1 hx).resolve_right hgone

/-- A pair that leaves `resident` was the oldest, no frame was free, and its frame went to the page that is now the most
recent, or the block has panicked (R166, R169, R175). -/
theorem exec_evicts_head {i : Instr} {s t : State} (h : exec i s = .next t) {x : Nat × Nat} (hx : x ∈ s.resident)
    (hgone : x ∉ t.resident) :
    s.freeFrames = [] ∧ s.resident.head? = some x ∧
      (t.fatal = true ∨ ∃ v, v ≠ x.1 ∧ t.resident.getLast? = some (v, x.2)) := by
  cases exec_effect h with
  | answers ha _ =>
    obtain ⟨⟨-, -, hres, -⟩, -⟩ := ha
    exact absurd (hres ▸ hx) hgone
  | touches v moved _ _ _ _ => exact absurd (moved ▸ (moveToBack_perm s.resident v).mem_iff.2 hx) hgone
  | loads v f u handled same _ _ _ _ _ =>
    obtain ⟨-, -, -, -, habsent, hframe, -⟩ := handleFault_loaded handled
    obtain ⟨-, -, hsame, -⟩ := same
    rw [hsame] at hgone ⊢
    rcases hframe with ⟨-, hres⟩ | ⟨hnil, -, w, rest, hhead, hres⟩
    · exact absurd (hres ▸ List.mem_append_left _ hx) hgone
    · have hrest : x ∉ rest := fun hr => hgone (hres ▸ List.mem_append_left _ hr)
      have hv := findKey_eq_none.1 habsent
      rw [hhead] at hx hv ⊢
      obtain rfl := eq_head_of_not_mem_tail hx hrest
      exact ⟨hnil, rfl, .inr ⟨v, fun heq => hv (heq ▸ List.mem_cons_self), by rw [hres, List.getLast?_concat]⟩⟩
  | panics v u handled eq _ _ _ =>
    obtain ⟨-, -, -, -, -, hres, -⟩ := handleFault_panicked handled
    rw [eq, State.panic_resident] at hgone
    rw [eq, State.panic_fatal]
    rcases hres with hres | ⟨hnil, y, hhead⟩
    · exact absurd (hres ▸ hx) hgone
    · rw [hhead] at hx ⊢
      obtain rfl := eq_head_of_not_mem_tail hx hgone
      exact ⟨hnil, rfl, .inl rfl⟩

/-! ### While a frame is free -/

/-- A handler that panics while a frame is free has taken no page (R169). -/
theorem keepsPages_of_handleFault_panicked {s u : State} {v : Nat} (hu : handleFault s v = .panicked u)
    (hfree : s.freeFrames ≠ []) : KeepsPages s u := by
  obtain ⟨-, -, -, -, -, hres, -, hpt⟩ := handleFault_panicked hu
  rcases hres with hres | ⟨hnil, -⟩
  · exact .of_perm (.of_eq hres) (hpt hfree)
  · exact absurd hnil hfree

/-- While a frame is free no command evicts (R165, R174). -/
theorem exec_keepsPages_of_free {i : Instr} {s t : State} (hx : exec i s = .next t) (hfree : s.freeFrames ≠ []) :
    KeepsPages s t := by
  cases exec_effect hx with
  | answers ha _ =>
    obtain ⟨⟨-, hp, hr, -⟩, -⟩ := ha
    exact .of_perm (.of_eq hr) hp
  | touches v moved same _ _ _ =>
    obtain ⟨-, hp, -⟩ := same
    exact .of_perm (moved ▸ moveToBack_perm _ _) hp
  | loads v f u handled same _ _ _ _ _ =>
    obtain ⟨-, hp, hr, -⟩ := same
    rw [KeepsPages, hp, hr]
    exact keepsPages_of_handleFault_loaded handled hfree
  | panics v u handled eq _ _ _ =>
    rw [eq, KeepsPages, State.panic_pt, State.panic_resident]
    exact keepsPages_of_handleFault_panicked handled hfree

/-! ### The entry of an evicted page -/

/-- A load with no free frame leaves the oldest page the entry of an eviction (R166). -/
theorem evictedEntry_of_handleFault_loaded {s t : State} {v f : Nat} (h : handleFault s v = .loaded f t)
    (hfree : s.freeFrames = []) :
    ∃ u rest e, s.resident = (u, f) :: rest ∧ ptRead s.pt u = some e ∧
      ptRead t.pt u = some (evictedEntry s.cfg.space e) := by
  rcases handleFault_cases s v with ⟨-, hend⟩ | ⟨_, -, -, hend⟩ | ⟨_, _, -, -, -, hend⟩ |
      ⟨f, t', habsent, hacq, -, hend⟩ <;> rw [hend] at h <;> cases h
  rcases acquireFrame_cases s with ⟨_, _, hf, -⟩ | ⟨u, g, rest, e, -, hres, he, ha⟩ | ⟨-, -, ha⟩ |
      ⟨_, _, _, -, -, -, ha⟩
  · rw [hfree] at hf
    cases hf
  · rw [hacq] at ha
    cases ha
    have huv := victim_ne_of_not_resident hres (findKey_eq_none.1 habsent)
    exact ⟨u, rest, e, hres, he, (ptRead_ptWrite_of_ne huv _ _).trans (ptRead_ptWrite_self _ _ _)⟩
  all_goals rw [hacq] at ha; cases ha

/-- Under the invariants a page that a command takes out of `resident` is left with the entry of an eviction (R166). -/
theorem ptRead_of_evicted {i : Instr} {s t : State} (h : s.Inv) (hx : exec i s = .next t) {u : Nat} {e : Entry}
    (he : ptRead s.pt u = some e) (hu : u ∈ s.resident.map Prod.fst) (hgone : u ∉ t.resident.map Prod.fst) :
    ptRead t.pt u = some (evictedEntry s.cfg.space e) := by
  obtain ⟨⟨_, g⟩, hmem, rfl⟩ := List.mem_map.1 hu
  obtain ⟨hfree, hhead, -⟩ := exec_evicts_head hx hmem fun ht => hgone (List.mem_map_of_mem ht)
  cases exec_effect hx with
  | answers ha _ =>
    obtain ⟨⟨-, -, hres, -⟩, -⟩ := ha
    exact absurd (hres ▸ hu) hgone
  | touches v moved _ _ _ _ =>
    exact absurd (moved ▸ ((moveToBack_perm s.resident v).map Prod.fst).mem_iff.2 hu) hgone
  | loads v f w handled same _ _ _ _ _ =>
    obtain ⟨w, rest, d, hres, hd, hread⟩ := evictedEntry_of_handleFault_loaded handled hfree
    obtain ⟨-, hpt, -⟩ := same
    rw [hres] at hhead
    cases hhead
    rw [he] at hd
    cases hd
    rw [hpt, hread]
  | panics v w handled _ _ slot _ => exact absurd handled (handleFault_ne_panicked h slot w)

/-- From a good state HANDLE_FAULT of a page that is not resident writes the entry of a load (R167). -/
theorem ptRead_of_handleFault_good {s t : State} (h : s.Good) {v : Nat} (hv : v < s.cfg.space.virtualPageCount)
    (habsent : v ∉ s.resident.map Prod.fst) (hx : exec (.handleFault v) s = .next t) :
    ∃ f < s.cfg.space.frameCount, ptRead t.pt v = some (loadedEntry s.cfg.space (loadBase (ptRead s.pt v)) f) := by
  obtain ⟨hinv, hfatal⟩ := h
  obtain ⟨f, u, -, hpending, hload, -⟩ := handleFault_good hinv hv (findKey_eq_none.2 habsent)
  rw [exec_handleFault_of_loaded hfatal hv hload, next_inj] at hx
  subst hx
  rw [← hpending.cfg_eq]
  exact ⟨f, hpending.frame_lt, ptRead_ptWrite_self _ _ _⟩

/-- A load keeps every bit above the present bit (R129, R167). -/
theorem testBit_loadRaw_of_gt {fb f i : Nat} (base : Nat) (hf : f < 2 ^ fb) (hi : fb < i) :
    (loadRaw fb base f).testBit i = base.testBit i := by
  rw [testBit_loadRaw i hf, if_neg hi.ne', if_neg hi.not_gt]

/-! ### The mapping of a page -/

theorem State.Maps.of_ptRead_eq {s t : State} {v f : Nat} (h : s.Maps v f) (hread : ptRead t.pt v = ptRead s.pt v) :
    t.Maps v f := by
  obtain ⟨e, he, hentry⟩ := h
  exact ⟨e, hread.trans he, hentry⟩

/-- When the oldest page is the mapped page `v`, the oldest pair is `v` with its frame (R28, R31). -/
theorem State.Maps.head_eq {s : State} {v f : Nat} (hm : s.Maps v f) (h : s.Inv) (hf : f < s.cfg.space.frameCount)
    (hhead : s.resident.head?.map Prod.fst = some v) : s.resident.head? = some (v, f) := by
  have hmem := hm.mem_resident h hf
  obtain ⟨-, -, -, -, ⟨hnd, -⟩, -⟩ := h
  obtain ⟨x, hx, hxv⟩ := Option.map_eq_some_iff.1 hhead
  rw [hx, List.inj_on_of_nodup_map hnd (List.mem_of_mem_head? hx) hmem hxv]

end Sys2Proof.Machine

/-- Settles O46: the queue by `exec_freeFrames`, and a pair that leaves `resident` by `exec_evicts_head`. -/
theorem noCommandFreesAFrame : Obligations.NoCommandFreesAFrame := fun _ _ _ hx =>
  ⟨exec_freeFrames hx, fun _ _ hmem hgone => exec_evicts_head hx hmem hgone⟩

/-- Settles O47: the pairs of `resident` are kept, so their pages are too. -/
theorem noEvictionWhileAFrameIsFree : Obligations.NoEvictionWhileAFrameIsFree := by
  intro i s t hx hfree
  obtain ⟨hres, hpt⟩ := exec_keepsPages_of_free hx hfree
  exact ⟨hpt, List.map_subset Prod.fst hres⟩

/-- Settles O48: the pair of the page leaves `resident` with it. -/
theorem onlyTheOldestPageIsEvicted : Obligations.OnlyTheOldestPageIsEvicted := by
  intro i s t v hx hv hgone
  obtain ⟨⟨_, f⟩, hmem, rfl⟩ := List.mem_map.1 hv
  obtain ⟨hfree, hhead, -⟩ := exec_evicts_head hx hmem fun ht => hgone (List.mem_map_of_mem ht)
  exact ⟨hfree, by rw [hhead]; rfl⟩

/-- Settles O50: a mapped page is resident, so it is not the page that is loaded; its slot is written only as the victim's. -/
theorem physicalAddressesStayValidUntilEviction : Obligations.PhysicalAddressesStayValidUntilEviction := by
  rintro i s t v f ⟨h, -⟩ hx hmaps hf
  cases exec_effect hx with
  | answers ha _ =>
    obtain ⟨⟨-, hpt, -⟩, -⟩ := ha
    exact .inl (hmaps.of_ptRead_eq (by rw [hpt]))
  | touches _ _ same _ _ _ =>
    obtain ⟨-, hpt, -⟩ := same
    exact .inl (hmaps.of_ptRead_eq (by rw [hpt]))
  | loads w g u handled same _ _ _ _ _ =>
    obtain ⟨-, -, -, -, habsent, -, -, -, hother⟩ := handleFault_loaded handled
    obtain ⟨-, hpt, -⟩ := same
    have hvw : v ≠ w := by
      rintro rfl
      exact findKey_eq_none.1 habsent (List.mem_map_of_mem (hmaps.mem_resident h hf))
    by_cases hvictim : s.freeFrames = [] ∧ s.resident.head?.map Prod.fst = some v
    · obtain ⟨hfree, hhead⟩ := hvictim
      exact .inr ⟨hfree, hmaps.head_eq h hf hhead⟩
    · refine .inl (hmaps.of_ptRead_eq ?_)
      rw [hpt, hother v hvw fun hfree hhead => hvictim ⟨hfree, hhead⟩]
  | panics w u handled _ _ slot _ => exact absurd handled (handleFault_ne_panicked h slot u)

/-- Settles O52: TOUCH and a hit move a page by `moveToBack`; a load appends, after an eviction or with a free frame. -/
theorem oneRecencyOrder : Obligations.OneRecencyOrder := by
  rintro i s t ⟨h, -⟩ hx
  cases exec_effect hx with
  | answers ha _ =>
    obtain ⟨⟨-, -, hres, -⟩, -⟩ := ha
    exact .inl hres
  | touches v moved _ _ _ _ =>
    rcases moveToBack_cases s.resident v with hsame | ⟨older, f, newer, hsplit, hmoved⟩
    · exact .inl (moved.trans hsame)
    · exact .inr (.inl ⟨older, v, f, newer, hsplit, moved.trans hmoved⟩)
  | loads v f u handled same _ _ _ _ _ =>
    obtain ⟨-, -, -, -, -, hframe, -⟩ := handleFault_loaded handled
    obtain ⟨-, -, hres, hfree, -⟩ := same
    rw [hres, hfree]
    rcases hframe with ⟨hfront, happend⟩ | ⟨hnil, -, w, rest, hhead, happend⟩
    · exact .inr (.inr (.inl ⟨v, f, hfront, happend⟩))
    · exact .inr (.inr (.inr ⟨w, v, f, rest, hnil, hhead, happend⟩))
  | panics v u handled _ _ slot _ => exact absurd handled (handleFault_ne_panicked h slot u)

/-- Settles O54: the eviction leaves the stale entry that the reload starts from; neither writes a bit above the present
bit. -/
theorem evictThenReloadKeepsTheControlBits : Obligations.EvictThenReloadKeepsTheControlBits := by
  rintro s t w u v e ⟨h, hfatal⟩ he hu hevict hgone hreload
  obtain ⟨ht, htf⟩ := exec_inv h hevict
  have hslot : u < t.cfg.space.virtualPageCount := by
    obtain ⟨-, ⟨-, hkeys⟩, -⟩ := h
    exact exec_cfg hevict ▸ hkeys _ (mem_of_ptRead he)
  obtain ⟨f, hf, hread⟩ := ptRead_of_handleFault_good ⟨ht, htf.trans hfatal⟩ hslot hgone hreload
  rw [ptRead_of_evicted h hevict he hu hgone, exec_cfg hevict] at hread
  rw [exec_cfg hevict] at hf
  refine ⟨_, hread, rfl, presentBit_loadRaw _ _ _, fun i hi => ?_⟩
  calc (loadRaw s.cfg.space.frameBits (setPresent s.cfg.space.frameBits e.raw false) f).testBit i
      = (setPresent s.cfg.space.frameBits e.raw false).testBit i := testBit_loadRaw_of_gt _ hf hi
    _ = e.raw.testBit i := testBit_setPresent_of_ne e.raw false hi.ne'

end

section
/-! PROOFS. RESOLVE (44_resolve.md R190 to R200): what it answers by the end of the first translation, the retry after a fault,
and the primitive commands it stands for. -/

open Sys2Proof Sys2Proof.Machine

namespace Sys2Proof.Machine

/-! ### What the end of a translation says of the slot -/

/-- A translation that succeeds reads a present entry with the frame of its result (R142, R145). -/
theorem slot_of_translateVa_ok {c : AddressSpaceConfig} {pt : PageTable} {va : Int} {r : TranslationResult}
    (h : translateVa c pt va = .ok r) :
    (∃ e, ptRead pt (va.toNat / 2 ^ c.offsetBits) = some e ∧ e.present = true ∧ e.frame = r.frame) ∧
      r.pa = physicalAddress c r.frame r.offset := by
  rcases translate_cases c pt va with ⟨-, htr⟩ | ⟨-, -, htr⟩ | ⟨_, -, -, -, htr⟩ | ⟨_, -, -, -, -, htr⟩ |
      ⟨e, -, he, hp, -, htr⟩ <;> rw [htr] at h <;> cases h
  exact ⟨⟨e, vpnOf_eq_div c va.toNat ▸ he, hp, rfl⟩, rfl⟩

/-- A translation that faults is of an address in range, and names its page, which has no present entry (R143). -/
theorem page_of_translateVa_pageFault {c : AddressSpaceConfig} {pt : PageTable} {va : Int} {v : Nat}
    {stale : Option Entry} (h : translateVa c pt va = .pageFault v stale) :
    addressInRange c va = true ∧ vpnOf c va.toNat = v ∧ ∀ e, ptRead pt v = some e → e.present = false := by
  rcases translate_cases c pt va with ⟨-, htr⟩ | ⟨hr, he, htr⟩ | ⟨e, hr, he, hp, htr⟩ | ⟨_, -, -, -, -, htr⟩ |
      ⟨_, -, -, -, -, htr⟩ <;> rw [htr] at h <;> cases h
  · exact ⟨hr, rfl, by simp [he]⟩
  · exact ⟨hr, rfl, by simp [he, hp]⟩

/-! ### What RESOLVE answers, by the end of the first translation -/

section
variable {s : State} (h : s.fatal = false) {va : Int}
include h

/-- A hit touches the page and answers the translation (R192). -/
theorem exec_resolve_of_ok {r : TranslationResult} (htr : translateVa s.cfg.space s.pt va = .ok r) :
    exec (.resolve va) s = .next ((s.touch r.vpn).respondOk r.define) := by
  rw [exec, execResolve, unlessFatal_of_running h, htr]

/-- RESOLVE passes the signal of an address out of range on (R193). -/
theorem exec_resolve_of_addressOutOfRange (htr : translateVa s.cfg.space s.pt va = .addressOutOfRange) :
    exec (.resolve va) s = .next (s.signal .addressOutOfRange) := by
  rw [exec, execResolve, unlessFatal_of_running h, htr]

variable {v : Nat} {stale : Option Entry} (htr : translateVa s.cfg.space s.pt va = .pageFault v stale) {u : State}
include htr

/-- A fault whose handler loads the page answers the retry (R195). -/
theorem exec_resolve_of_loaded {f : Nat} (hu : handleFault s v = .loaded f u) {r : TranslationResult}
    (hretry : translateVa u.cfg.space u.pt va = .ok r) : exec (.resolve va) s = .next (u.respondOk r.define) := by
  rw [exec_resolve_of_pageFault h htr, takePageFault, hu]
  simp only [returnFromPageFault, hretry]

/-- A fault whose handler panics ends in the panic (R196). -/
theorem exec_resolve_of_panicked (hu : handleFault s v = .panicked u) : exec (.resolve va) s = .next u.panic := by
  rw [exec_resolve_of_pageFault h htr, takePageFault, hu]

end

/-- The retry finds the page that the handler has loaded (R195). -/
theorem retry_ok_of_loaded {s u : State} {va : Int} {v f : Nat} {stale : Option Entry}
    (htr : translateVa s.cfg.space s.pt va = .pageFault v stale) (hu : handleFault s v = .loaded f u) :
    ∃ r, translateVa u.cfg.space u.pt va = .ok r := by
  obtain ⟨hr, hv, -⟩ := page_of_translateVa_pageFault htr
  obtain ⟨_, -, -, -, -, -, hretry⟩ := retry_of_loaded hr hv hu
  exact ⟨_, hretry⟩

/-- An answer OK of RESOLVE is the translation of the address by the table that RESOLVE leaves, after a hit and after a
fault (R192, R195). -/
theorem translated_of_resolve_ok {s t : State} {va : Int} (h : exec (.resolve va) s = .next t)
    (hok : t.resp.status = .ok) : ∃ r, translateVa t.cfg.space t.pt va = .ok r ∧ Gives t.resp r := by
  cases hf : s.fatal with
  | true =>
    rw [exec_of_panicked hf, next_inj] at h
    subst h
    cases hok
  | false =>
    cases htr : translateVa s.cfg.space s.pt va with
    | ok r =>
      rw [exec_resolve_of_ok hf htr, next_inj] at h
      subst h
      exact ⟨r, htr, gives_respondOk_define _ r⟩
    | pageFault v stale =>
      cases hu : handleFault s v with
      | loaded f u =>
        obtain ⟨r, hretry⟩ := retry_ok_of_loaded htr hu
        rw [exec_resolve_of_loaded hf htr hu hretry, next_inj] at h
        subst h
        exact ⟨r, hretry, gives_respondOk_define u r⟩
      | panicked u =>
        rw [exec_resolve_of_panicked hf htr hu, next_inj] at h
        subst h
        cases hok
      | refused =>
        rw [exec_resolve_of_pageFault hf htr, takePageFault, hu] at h
        cases h
    | addressOutOfRange =>
      rw [exec_resolve_of_addressOutOfRange hf htr, next_inj] at h
      subst h
      cases hok
    | invalidConfiguration =>
      rw [exec_resolve_of_invalidConfiguration hf htr, next_inj] at h
      subst h
      cases hok

/-- A page fault is no answer of RESOLVE (R190). -/
theorem status_of_resolve {s t : State} {va : Int} (h : exec (.resolve va) s = .next t) :
    t.resp.status ∈ [Status.ok, .addressOutOfRange, .invalidConfiguration, .fatal] := by
  rcases (exec_reply h).status_cases with hst | hst | ⟨-, _, hasked⟩ | ⟨hst, -⟩ | ⟨hst, -⟩
  case inr.inr.inl => cases hasked
  all_goals rw [hst]; decide

/-! ### The fault from a good state -/

/-- Under the invariants a page that faults is not resident (R31 INV-K). -/
theorem not_resident_of_pageFault {s : State} (h : s.Inv) {va : Int} {v : Nat} {stale : Option Entry}
    (htr : translateVa s.cfg.space s.pt va = .pageFault v stale) : v ∉ s.resident.map Prod.fst := by
  obtain ⟨-, -, -, -, -, -, -, hK⟩ := h
  obtain ⟨hv, -⟩ := pageFault_slot htr
  obtain ⟨-, -, hno⟩ := page_of_translateVa_pageFault htr
  obtain ⟨hmem, -⟩ := (invK_iff s).1 hK v hv
  intro hres
  obtain ⟨e, he, hp, -⟩ := hmem.1 hres
  rw [hno e he] at hp
  cases hp

/-- Under the invariants the handler loads a page that faults, and the retry succeeds (R170, R195). -/
theorem handleFault_of_pageFault {s : State} (h : s.Inv) {va : Int} {v : Nat} {stale : Option Entry}
    (htr : translateVa s.cfg.space s.pt va = .pageFault v stale) :
    ∃ f u r, handleFault s v = .loaded f u ∧ translateVa u.cfg.space u.pt va = .ok r := by
  obtain ⟨hv, -⟩ := pageFault_slot htr
  obtain ⟨f, _, -, -, hu, -⟩ := handleFault_good h hv (findKey_eq_none.2 (not_resident_of_pageFault h htr))
  obtain ⟨r, hretry⟩ := retry_ok_of_loaded htr hu
  exact ⟨f, _, r, hu, hretry⟩

/-- From a good state RESOLVE is never refused (R194). -/
theorem exec_resolve_of_good {s : State} (h : s.Good) (va : Int) : ∃ t, exec (.resolve va) s = .next t := by
  obtain ⟨hinv, hfatal⟩ := h
  cases htr : translateVa s.cfg.space s.pt va with
  | ok r => exact ⟨_, exec_resolve_of_ok hfatal htr⟩
  | pageFault v stale =>
    obtain ⟨f, u, r, hu, hretry⟩ := handleFault_of_pageFault hinv htr
    exact ⟨_, exec_resolve_of_loaded hfatal htr hu hretry⟩
  | addressOutOfRange => exact ⟨_, exec_resolve_of_addressOutOfRange hfatal htr⟩
  | invalidConfiguration => exact ⟨_, exec_resolve_of_invalidConfiguration hfatal htr⟩

/-! ### The handler depends on the block alone -/

/-- Frame acquisition does not see the response port. -/
theorem acquireFrame_of_sameBlock {s s' t : State} (h : SameBlock s s') {f : Nat} (ha : acquireFrame s = .frame f t) :
    ∃ t', acquireFrame s' = .frame f t' ∧ SameBlock t t' := by
  obtain ⟨hcfg, hpt, hres, hfree, hfatal⟩ := h
  rcases acquireFrame_cases s with ⟨g, rest, hf, hacq⟩ | ⟨u, g, rest, e, hf, hr, he, hacq⟩ | ⟨-, -, hacq⟩ |
      ⟨_, _, _, -, -, -, hacq⟩ <;> rw [hacq] at ha <;> cases ha
  · exact ⟨_, acquireFrame_of_free (hfree.trans hf), hcfg, hpt, hres, rfl, hfatal⟩
  · refine ⟨_, acquireFrame_of_victim (hfree.trans hf) (hres.trans hr) (by rw [hpt, he]), hcfg, ?_, rfl, hfree, hfatal⟩
    rw [State.withPt_pt, State.withPt_pt, hpt, hcfg]

/-- A load is the same whatever the response port holds. -/
theorem handleFault_of_sameBlock {s s' u : State} (h : SameBlock s s') {v f : Nat} (hu : handleFault s v = .loaded f u) :
    ∃ u', handleFault s' v = .loaded f u' ∧ SameBlock u u' := by
  rcases handleFault_cases s v with ⟨-, hend⟩ | ⟨_, -, -, hend⟩ | ⟨_, _, -, -, -, hend⟩ |
      ⟨f, t, habsent, hacq, hfits, hend⟩ <;> rw [hend] at hu <;> cases hu
  obtain ⟨t', hacq', hcfg', hpt', hres', hfree', hfatal'⟩ := acquireFrame_of_sameBlock h hacq
  obtain ⟨-, hpt, hres, -⟩ := h
  refine ⟨_, handleFault_eq (hres ▸ habsent) hacq' (hcfg' ▸ hfits), hcfg', ?_, ?_, hfree', hfatal'⟩
  · simp [hpt, hpt', hcfg']
  · simp [hres']

theorem definePageFault_vpn (v : Nat) (stale : Option Entry) (r : Response) : (definePageFault v stale r).vpn = v := by
  cases stale <;> rfl

end Sys2Proof.Machine

/-- Settles O35: RESOLVE is not refused, `exec_inv` keeps the invariants and the flag, so the answer is not FATAL, and an
answer OK is a translation by the table that is left. -/
theorem resolveNeverPanicsFromAGoodState : Obligations.ResolveNeverPanicsFromAGoodState := by
  intro s va h
  obtain ⟨t, hx⟩ := exec_resolve_of_good h va
  obtain ⟨hinv, hrunning⟩ := h
  obtain ⟨htinv, htfatal⟩ := exec_inv hinv hx
  have htrunning : t.fatal = false := htfatal.trans hrunning
  refine ⟨t, hx, ⟨htinv, htrunning⟩, ?_, fun hok => ?_⟩
  · have hnot : t.resp.status ≠ .fatal := fun hst => by
      rw [(exec_status_fatal_iff hx).1 hst] at htrunning
      cases htrunning
    simpa [hnot] using status_of_resolve hx
  · obtain ⟨r, htr, -, -, hoff, hframe, hpa, -⟩ := translated_of_resolve_ok hx hok
    rw [exec_cfg hx] at htr
    rw [hoff, hframe, hpa]
    exact slot_of_translateVa_ok htr

/-- Settles O30: the translation of a mapped page is a hit, and its touch is `moveToBack`; INV-K makes the page resident. -/
theorem resolveHitAnswersAndTouches : Obligations.ResolveHitAnswersAndTouches := by
  intro s va e h hva he hp hf
  refine ⟨_, exec_resolve_of_ok h (translateVa_of_mapped hva rfl he hp hf), gives_respondOk_define _ _, rfl, rfl, rfl, rfl,
    rfl, fun hno => moveToBack_of_not_mem hno, fun older f newer hres hfirst => ?_, fun ⟨hinv, _⟩ => ?_⟩
  · rw [State.respondOk_resident, State.touch_resident, hres, moveToBack_append_cons hfirst]
  · have hmaps : s.Maps (va / 2 ^ s.cfg.space.offsetBits) e.frame := ⟨e, he, hp, rfl⟩
    exact List.mem_map_of_mem (hmaps.mem_resident hinv hf)

/-- Settles O31: the two commands give the same signal, and the range check alone decides the first of them. -/
theorem resolveErrorsPassThrough : Obligations.ResolveErrorsPassThrough := by
  intro s va h
  refine ⟨fun r hr hst => ?_, fun hva => ?_⟩
  · rw [exec_translate_of_running h, next_inj] at hr
    subst hr
    cases htr : translateVa s.cfg.space s.pt va with
    | ok r => simp [htr] at hst
    | pageFault v stale => simp [htr, definePageFault_status] at hst
    | addressOutOfRange => exact ⟨_, exec_resolve_of_addressOutOfRange h htr, rfl, onlyAnswers_respond s _⟩
    | invalidConfiguration => exact ⟨_, exec_resolve_of_invalidConfiguration h htr, rfl, onlyAnswers_respond s _⟩
  · have htr := (translateVa_eq_addressOutOfRange (pt := s.pt)).2 (addressInRange_eq_false.2 hva)
    exact ⟨_, exec_resolve_of_addressOutOfRange h htr, State.signal_resp s _, onlyAnswers_respond s _⟩

/-- Settles O32: the page faults, the handler loads it, and the retry finds it mapped. -/
theorem resolveFaultLoadsThePageAndAnswers : Obligations.ResolveFaultLoadsThePageAndAnswers := by
  rintro s va ⟨hinv, hrunning⟩ hva hno
  have htr := translateVa_of_no_present_entry hva rfl hno
  obtain ⟨f, u, -, hu, -⟩ := handleFault_of_pageFault hinv htr
  obtain ⟨hcfg, hhost, hfatal, -, -, hframe, ⟨e, he, hp, rfl⟩, hf, -⟩ := handleFault_loaded hu
  have hretry := translateVa_of_mapped hva rfl he hp hf
  refine ⟨_, e.frame, e, exec_resolve_of_loaded hrunning htr hu (hcfg ▸ hretry), ?_, he, hp, rfl,
    gives_respondOk_define u _, hcfg, hfatal.trans hrunning, hhost⟩
  rcases hframe with hfree | ⟨hnil, hnil', w, rest, hres, happend⟩
  · exact .inl hfree
  · obtain ⟨_, _, _, hres', -, hevicted⟩ := evictedEntry_of_handleFault_loaded hu hnil
    cases hres.symm.trans hres'
    exact .inr ⟨w, rest, hnil, hnil', hres, happend, _, hevicted, rfl⟩

/-- Settles O33: on each of the paths the handler that RESOLVE has entered panics, in the state that frame acquisition left. -/
theorem resolvePanicsOnTheImpossiblePaths : Obligations.ResolvePanicsOnTheImpossiblePaths := by
  intro s va h hva hno habsent
  have htr := translateVa_of_no_present_entry hva rfl hno
  refine ⟨fun hfree hres => ?_, fun u f rest hfree hres he => ?_, fun f rest hfree hf => ?_,
    fun u f rest e hfree hres he hf => ?_⟩
  · have hu := handleFault_of_acquire_panicked habsent (acquireFrame_of_empty hfree hres)
    exact ⟨_, exec_resolve_of_panicked h htr hu, rfl, rfl, rfl, hres, hfree, rfl, rfl⟩
  · have hu := handleFault_of_acquire_panicked habsent (acquireFrame_of_victim_without_entry hfree hres he)
    exact ⟨_, exec_resolve_of_panicked h htr hu, rfl, rfl, rfl, rfl, hfree, rfl, rfl⟩
  · have hu := handleFault_of_overflow habsent (acquireFrame_of_free hfree) hf
    exact ⟨_, exec_resolve_of_panicked h htr hu, rfl, rfl, rfl, rfl, rfl, rfl, rfl⟩
  · have hu := handleFault_of_overflow habsent (acquireFrame_of_victim hfree hres he) hf
    exact ⟨_, exec_resolve_of_panicked h htr hu, rfl, rfl, ptRead_ptWrite_self _ _ _,
      fun a ha => ptRead_ptWrite_of_ne ha _ _, rfl, hfree, rfl, rfl⟩

/-- Settles O34: the statuses of RESOLVE, and FATAL with the flag by the inversion of `exec`. -/
theorem resolveNeverAnswersPageFault : Obligations.ResolveNeverAnswersPageFault := fun _ _ _ _ hx =>
  ⟨status_of_resolve hx, exec_status_fatal_iff hx⟩

/-- Settles O36: one case per end of TRANSLATE. After a fault HANDLE_FAULT begins in a block that TRANSLATE has only let
answer, so it leaves the table on which RESOLVE retries. -/
theorem resolveEqualsThePrimitiveCommands : Obligations.ResolveEqualsThePrimitiveCommands := by
  rintro s va ⟨hinv, hrunning⟩
  have hfirst := exec_translate_of_running hrunning va
  cases htr : translateVa s.cfg.space s.pt va with
  | ok r =>
    rw [htr, respondTranslation_ok] at hfirst
    refine ⟨_, _, hfirst, exec_resolve_of_ok hrunning htr, fun _ => ?_, nofun, fun hne => absurd rfl hne⟩
    have htouch := exec_touch_of_running (s := s.respondOk r.define) hrunning r.vpn
    exact ⟨_, htouch, ⟨rfl, rfl, rfl, rfl, rfl⟩, gives_respondOk_define _ r⟩
  | pageFault v stale =>
    rw [htr, respondTranslation_pageFault] at hfirst
    obtain ⟨hv, -⟩ := pageFault_slot htr
    obtain ⟨f, u, r, hu, hretry⟩ := handleFault_of_pageFault hinv htr
    have hanswered : SameBlock s (s.respond (definePageFault v stale)) := ⟨rfl, rfl, rfl, rfl, rfl⟩
    obtain ⟨u', hu', hcfg, hpt, hres, hfree, hfatal⟩ := handleFault_of_sameBlock hanswered hu
    obtain ⟨-, -, hufatal, -⟩ := handleFault_loaded hu
    have hrunning' : u'.fatal = false := (hfatal.trans hufatal).trans hrunning
    refine ⟨_, _, hfirst, exec_resolve_of_loaded hrunning htr hu hretry,
      fun hst => by simp [definePageFault_status] at hst, fun _ => ?_,
      fun _ hne => absurd (definePageFault_status v stale _) hne⟩
    have hload := exec_handleFault_of_loaded (s := s.respond (definePageFault v stale)) hrunning hv hu'
    have hagain := exec_translate_of_running (s := u'.respondOk fun x => { x with frame := f }) hrunning' va
    rw [State.respondOk_cfg, State.respondOk_pt, hcfg, hpt, hretry, respondTranslation_ok] at hagain
    rw [State.respond_resp, definePageFault_vpn]
    exact ⟨_, _, hload, hagain, ⟨hcfg.symm, hpt.symm, hres.symm, hfree.symm, hfatal.symm⟩, rfl,
      gives_respondOk_define u r⟩
  | addressOutOfRange =>
    rw [htr, respondTranslation_addressOutOfRange] at hfirst
    exact ⟨_, _, hfirst, exec_resolve_of_addressOutOfRange hrunning htr, nofun, nofun,
      fun _ _ => ⟨⟨rfl, rfl, rfl, rfl, rfl⟩, rfl⟩⟩
  | invalidConfiguration =>
    rw [htr, respondTranslation_invalidConfiguration] at hfirst
    exact ⟨_, _, hfirst, exec_resolve_of_invalidConfiguration hrunning htr, nofun, nofun,
      fun _ _ => ⟨⟨rfl, rfl, rfl, rfl, rfl⟩, rfl⟩⟩

end

section
/-! PROOFS. The panic and the signals (60_exceptions.md R217, R218, R222): a panicked block answers every record with FATAL,
and a command that signals has only answered. -/

open Sys2Proof Sys2Proof.Machine

namespace Sys2Proof.Machine

/-- A panicked block answers every record with FATAL, a command's and a reserved one alike (R217, R222). -/
theorem runCommand_of_panicked {s : State} (h : s.fatal = true) (c : Command) :
    runCommand c s = .next (s.signal .fatal) := by
  cases hd : decodeCommand c with
  | instr i => rw [runCommand_of_instr hd, exec_of_panicked h]
  | rejected r => rw [runCommand, hd]; exact unlessFatal_of_panicked h _

theorem step_of_panicked {s : State} (h : s.fatal = true) {c : Command} {rest : List HostMove}
    (hhost : s.host = .command c :: rest) : step s = .next ((s.withHost rest).signal .fatal) := by
  rw [step_of_command hhost, runCommand_of_panicked (s := s.withHost rest) h]

end Sys2Proof.Machine

/-- Settles O38: the answer FATAL leaves the flag set, so of the moves that give a next state only a reset can clear it. -/
theorem fatalIsStickyUntilReset : Obligations.FatalIsStickyUntilReset := by
  refine ⟨fun s c rest h hhost => ⟨_, step_of_panicked h hhost, rfl, ⟨rfl, rfl, rfl, rfl, rfl⟩, rfl⟩,
    fun s t h hstep hcleared => ?_⟩
  have hno_command (c : Command) (rest : List HostMove) : s.host ≠ .command c :: rest := fun hhost => by
    rw [step_of_panicked h hhost, next_inj] at hstep
    subst hstep
    exact Bool.false_ne_true (hcleared.symm.trans h)
  rcases step_cases hstep with ⟨-, rfl⟩ | ⟨c, rest, _, hhost, -⟩ | ⟨c, rest, _, hhost, -⟩ | ⟨img, rest, hhost, -⟩
  · exact absurd (hcleared.symm.trans h) Bool.false_ne_true
  · exact absurd hhost (hno_command c rest)
  · exact absurd hhost (hno_command c rest)
  · exact ⟨img, rest, hhost⟩

/-- Settles O40: by the inversion of `exec`, a command that does more than answer ends in OK, or in a panic with FATAL. -/
theorem signalsChangeNoState : Obligations.SignalsChangeNoState := by
  intro i s t hx hok hfatal
  cases exec_effect hx with
  | answers ha _ => exact ha
  | touches _ _ _ status _ _ => exact absurd status hok
  | loads _ _ _ _ _ _ status _ _ _ => exact absurd status hok
  | panics _ u _ eq _ _ _ => exact absurd (by rw [eq, State.panic_resp]) hfatal

end

section
/-! PROOFS. The host's moves, reset and boot (70_reset_and_hazards.md R240 to R248): what a reset builds from its image, that
the image of an empty store is always admitted, and the four ends of boot. -/

open Sys2Proof Sys2Proof.Machine

namespace Sys2Proof.Machine

/-! ### The moves of the host -/

/-- With no move of the host the block waits (R240; assumption 4). -/
theorem step_of_no_move {s : State} (h : s.host = []) : step s = .next s := by
  rw [step, takeMove, h]

/-- A step with a reset as the host's next move is that reset (R240, R248). -/
theorem step_of_reset {s : State} {img : ResetImage} {rest : List HostMove} (h : s.host = .reset img :: rest) :
    step s = resetBlock (s.withHost rest) img := by
  rw [step, takeMove, h]

theorem resetBlock_of_admitted {s : State} {img : ResetImage} (h : launchAdmitted s.cfg img) :
    resetBlock s img = .next (State.launch s.cfg img s.draws s.host) :=
  if_pos h

theorem resetBlock_of_not_admitted {s : State} {img : ResetImage} (h : ¬ launchAdmitted s.cfg img) :
    resetBlock s img = .refused .launchRefused :=
  if_neg h

/-! ### What a reset builds -/

/-- Looking up keys that are all there keeps the keys and their order. -/
theorem filterMap_findKey_keys {α : Type} {l : List (Nat × α)} {order : List Nat} (h : ∀ v ∈ order, v ∈ l.map Prod.fst) :
    (order.filterMap fun v => (findKey l v).map fun a => (v, a)).map Prod.fst = order := by
  rw [List.map_filterMap]
  refine (List.filterMap_congr (g := some) fun v hv => ?_).trans List.filterMap_some
  obtain ⟨a, ha⟩ := Option.isSome_iff_exists.1 (findKey_isSome.2 (h v hv))
  simp [ha]

/-- The resident pages after a reset are those of INIT_ORDER, in its order (R243). -/
theorem buildResident_keys {p : Params} {img : ResetImage} (h : launchAdmitted p img) :
    (buildResident p.space img).map Prod.fst = img.initOrder := by
  obtain ⟨-, -, -, -, -, hinit, -⟩ := h
  exact filterMap_findKey_keys fun _ hv => hinit.mem_iff.1 hv

/-- Each resident page after a reset has the frame of its present entry (R243). -/
theorem ptRead_of_mem_buildResident {p : Params} {img : ResetImage} (h : launchAdmitted p img) {x : Nat × Nat}
    (hx : x ∈ buildResident p.space img) : ∃ e, ptRead img.ptInit x.1 = some e ∧ e.present = true ∧ e.frame = x.2 := by
  obtain ⟨e, he, hholds, hframe⟩ := mem_heldPages.1 ((buildResident_perm h).mem_iff.1 hx)
  obtain ⟨hrise, -⟩ := h
  exact ⟨e, findKey_of_mem (nodup_keys_of_keysRising hrise) he, (holdsFrame_iff.1 hholds).1, hframe⟩

/-- The empty store with the default orders is admitted, for any constants (R241, R243, R244). -/
theorem launchAdmitted_empty (p : Params) : launchAdmitted p (defaultImage p.space []) :=
  ⟨.nil, nofun, nofun, nofun, .nil, .refl _, .refl _⟩

/-! ### The ends of `create` and of boot -/

/-- The widths and the image are within what the loader owes for the configuration `c` (R9, R241). -/
abbrev Bootable (c : AddressSpaceConfig) (w : PortWidths) (img : ResetImage) : Prop :=
  Params.ok { space := c, widths := w } ∧ launchAdmitted { space := c, widths := w } img

/-- A sequence of steps refuses a launch only if one of them does. -/
theorem Elaborated.andThen_ne_launchRefused {α β : Type} {x : Elaborated α} {k : α → Elaborated β}
    (hx : x ≠ .launchRefused) (hk : ∀ a, k a ≠ .launchRefused) : x.andThen k ≠ .launchRefused := by
  cases x with
  | ok a => exact hk a
  | signal g => nofun
  | sizeTextRefused => nofun
  | launchRefused => exact absurd rfl hx

theorem parseSize_ne_launchRefused (s : List Char) : parseSize s ≠ .launchRefused := by
  rw [parseSize]
  split
  · nofun
  · split
    · nofun
    · split <;> nofun

theorem toBytes_ne_launchRefused (a : SizeArg) : a.toBytes ≠ .launchRefused := by
  cases a with
  | bytes n => nofun
  | text s => exact Elaborated.andThen_ne_launchRefused (parseSize_ne_launchRefused s) nofun

theorem optionalBytes_ne_launchRefused (a : Option SizeArg) : optionalBytes a ≠ .launchRefused := by
  cases a with
  | none => nofun
  | some a => exact Elaborated.andThen_ne_launchRefused (toBytes_ne_launchRefused a) nofun

theorem validateField_ne_launchRefused (f : ConfigField) (n : Int) : validateField f n ≠ .launchRefused := by
  rw [validateField]
  split <;> nofun

theorem createCounts_ne_launchRefused (ps fc vc : Int) : createCounts ps fc vc ≠ .launchRefused :=
  Elaborated.andThen_ne_launchRefused (validateField_ne_launchRefused _ _) fun _ =>
    Elaborated.andThen_ne_launchRefused (validateField_ne_launchRefused _ _) fun _ =>
      Elaborated.andThen_ne_launchRefused (validateField_ne_launchRefused _ _) nofun

theorem createMem_ne_launchRefused (ps pm vm : Int) : createMem ps pm vm ≠ .launchRefused := by
  refine Elaborated.andThen_ne_launchRefused (validateField_ne_launchRefused _ _) fun _ => ?_
  split
  · nofun
  · split
    · nofun
    · exact createCounts_ne_launchRefused _ _ _

theorem createFromPair_ne_launchRefused (ps : Int) (fc vc pm vm : Option Int) :
    createFromPair ps fc vc pm vm ≠ .launchRefused := by
  rw [createFromPair.eq_def]
  split
  · exact createCounts_ne_launchRefused _ _ _
  · exact createMem_ne_launchRefused _ _ _
  · nofun

/-- `create` has a value, a signal, or the refusal of a size text; refusing a launch is left to boot (R100, R247). -/
theorem create_ne_launchRefused (a : CreateArgs) : create a ≠ .launchRefused :=
  Elaborated.andThen_ne_launchRefused (toBytes_ne_launchRefused _) fun _ =>
    Elaborated.andThen_ne_launchRefused (optionalBytes_ne_launchRefused _) fun _ =>
      Elaborated.andThen_ne_launchRefused (optionalBytes_ne_launchRefused _) fun _ =>
        createFromPair_ne_launchRefused _ _ _ _ _

/-- Once there is a configuration, boot is the loader's check and the reset (R247). -/
theorem boot_of_ok {a : CreateArgs} {c : AddressSpaceConfig} (h : create a = .ok c) (w : PortWidths) (img : ResetImage) :
    boot a w img = if Bootable c w img then .ok (State.launch { space := c, widths := w } img 0 []) else .launchRefused := by
  rw [boot, h, Elaborated.ok_andThen]

/-- The four ends of boot, each under the end of `create` it comes from (R247). -/
theorem boot_cases (a : CreateArgs) (w : PortWidths) (img : ResetImage) :
    (∃ c, create a = .ok c ∧ Bootable c w img ∧
      boot a w img = .ok (State.launch { space := c, widths := w } img 0 [])) ∨
    (∃ c, create a = .ok c ∧ ¬ Bootable c w img ∧ boot a w img = .launchRefused) ∨
    (∃ g, create a = .signal g ∧ boot a w img = .signal g) ∨
    (create a = .sizeTextRefused ∧ boot a w img = .sizeTextRefused) := by
  cases hc : create a with
  | ok c =>
    by_cases h : Bootable c w img
    · exact .inl ⟨c, rfl, h, (boot_of_ok hc w img).trans (if_pos h)⟩
    · exact .inr (.inl ⟨c, rfl, h, (boot_of_ok hc w img).trans (if_neg h)⟩)
  | signal g => exact .inr (.inr (.inl ⟨g, rfl, by rw [boot, hc, Elaborated.signal_andThen]⟩))
  | sizeTextRefused => exact .inr (.inr (.inr ⟨rfl, by rw [boot, hc, Elaborated.sizeTextRefused_andThen]⟩))
  | launchRefused => exact absurd hc (create_ne_launchRefused a)

end Sys2Proof.Machine

/-- Settles O8: an admitted image launches the block with the constants it has, any other is refused. -/
theorem resetRebuildsTheState : Obligations.ResetRebuildsTheState := by
  intro s img rest hhost
  rw [step_of_reset hhost]
  refine ⟨fun h => ⟨State.launch s.cfg img s.draws rest, ?_, rfl, rfl, buildResident_keys h,
    fun _ => ptRead_of_mem_buildResident h, rfl, rfl, rfl⟩, fun h => ?_⟩
  · exact resetBlock_of_admitted (s := s.withHost rest) h
  · exact resetBlock_of_not_admitted (s := s.withHost rest) h

/-- Settles O43: the invariants by `launch_inv`, and a launch clears the flag. -/
theorem everyAdmittedLaunchIsGood : Obligations.EveryAdmittedLaunchIsGood :=
  fun _ _ d moves hok h => ⟨launch_inv hok h d moves, rfl⟩

/-- Settles O60: by the four ends of boot; the block it ends in is an admitted launch. -/
theorem bootGivesAGoodBlock : Obligations.BootGivesAGoodBlock := by
  intro a w img
  refine ⟨fun s hs => ?_, fun c hc hok himg => ⟨_, (boot_of_ok hc w img).trans (if_pos ⟨hok, himg⟩)⟩, ?_⟩
  · rcases boot_cases a w img with ⟨c, hc, ⟨hok, himg⟩, hb⟩ | ⟨c, -, -, hb⟩ | ⟨g, -, hb⟩ | ⟨-, hb⟩ <;>
      rw [hb] at hs <;> cases hs
    exact ⟨everyAdmittedLaunchIsGood _ _ _ _ hok himg, rfl, hc, rfl, rfl, buildResident_keys himg, rfl⟩
  · rcases boot_cases a w img with ⟨c, hc, h, hb⟩ | ⟨c, hc, h, hb⟩ | ⟨g, hc, hb⟩ | ⟨hc, hb⟩ <;> rw [hb, hc]
    · refine ⟨by simp, by simp, ⟨nofun, ?_⟩⟩
      rintro ⟨_, hc, hno⟩
      cases hc
      exact absurd h hno
    · exact ⟨by simp, by simp, fun _ => ⟨c, rfl, h⟩, fun _ => rfl⟩
    · simp
    · simp

/-- Settles O5: by the inversion of the host's move; the record is taken off before its command runs. -/
theorem stepRunsTheDecodedCommand : Obligations.StepRunsTheDecodedCommand :=
  ⟨fun s _ rest _ hhost hdec => (step_of_command hhost).trans (runCommand_of_instr hdec (s.withHost rest)),
    fun _ => step_of_no_move⟩

/-- Settles O42: the model's reset is the launch of the empty store, which is admitted. -/
theorem resetStateIsGood : Obligations.ResetStateIsGood :=
  everyAdmittedLaunchIsGood _ _ _ _ (by decide) (launchAdmitted_empty _)

end
